-- ==== Sys2Proof/Word.lean ====
section
/-! DEFINITION. The word types of the block (spec/00_scope.md R2, spec/30_encoding.md R54, R55).

Every field element, operand, table entry and buffer entry is one byte; a command word has 20 bits
and a response word 12. Bit 0 is the least significant bit of every value. -/

namespace Sys2Proof

/-- A field element or any other 8-bit datum (R2): bit `i` is the coefficient of `t^i`. -/
abbrev Byte := BitVec 8

/-- A command word (R54). -/
abbrev CmdWord := BitVec 20

/-- A response word (R55). -/
abbrev RspWord := BitVec 12

end Sys2Proof
end

