-- ==== Sys2Proof/Config.lean ====
section
/-! DEFINITION. What is fixed when the block is made and no command can change: the parameters of
spec/00_scope.md section 5.

`LATENCY` and `RESET_KIND`, the two other open parameters, are not modelled (notes/assumptions/3.md,
notes/assumptions/4.md). The block has no undefined result, so this file has no free value. -/

namespace Sys2Proof

/-- The parameters of the field (R3): the modulus `POLY`, a 9-bit value, and the generator `GEN`
whose powers fill the table `EXP`. Both are open, with defaults; every unit function takes them as
an argument. -/
structure FieldParams where
  poly : BitVec 9
  gen  : Byte
  deriving DecidableEq, Repr

/-- The default parameters (R3, decisions D1 and D2): `POLY = 0x11D`, `GEN = 0x02`. The machine takes any
parameters as an argument (`execFor`, `stepFor`, `coreFor`); `exec`, `step` and `core` are it at these.
Mark: PRESUMED, unsafe (notes/assumptions/1.md, notes/assumptions/2.md). -/
def Config.field : FieldParams := { poly := 0x11D#9, gen := 0x02#8 }

/-- `PCAP`, the capacity of the coefficient buffer (R4). -/
abbrev Config.pcap : Nat := 255

/-- `LCAP`, the capacity of the point buffer (R4). -/
abbrev Config.lcap : Nat := 255

/-- `ORDER`, the order of the multiplicative group: the modulus of exponent arithmetic. -/
abbrev Config.order : Nat := 255

end Sys2Proof
end

