-- ==== Sys2Proof/Syntax.lean ====
section
/-! DEFINITION. The commands (spec/30_encoding.md R56, R62; spec/opcode_table.json), one
constructor per row of the opcode table. -/

namespace Sys2Proof

/-- The ten commands and the pseudo-command `SUB`. Operands are the bytes `a` and `b` of the command
word, exactly as found there (R60); an operand field that must be zero is not an argument. -/
inductive Instr where
  /-- `ADD a, b` (R72). -/
  | add (a b : Byte)
  /-- `MUL a, b` (R76). -/
  | mul (a b : Byte)
  /-- `DIV a, b` (R82): `a` the dividend, `b` the divisor. -/
  | div (a b : Byte)
  /-- `INV a` (R83). -/
  | inv (a : Byte)
  /-- `PCLR` (R92). -/
  | pclr
  /-- `PPUSH c` (R93). -/
  | ppush (c : Byte)
  /-- `PEVAL x` (R94). -/
  | peval (x : Byte)
  /-- `LCLR` (R101). -/
  | lclr
  /-- `LPUSH x, y` (R102). -/
  | lpush (x y : Byte)
  /-- `LINTERP` (R103). -/
  | linterp
  /-- `SUB a, b`: the pseudo-command that expands to `ADD a, b` (R62). -/
  | sub (a b : Byte)
  deriving DecidableEq, Repr

/-- The mnemonic of a command, as R56 and R62 write it. -/
def Instr.mnemonic : Instr → String
  | .add _ _   => "ADD"
  | .mul _ _   => "MUL"
  | .div _ _   => "DIV"
  | .inv _     => "INV"
  | .pclr      => "PCLR"
  | .ppush _   => "PPUSH"
  | .peval _   => "PEVAL"
  | .lclr      => "LCLR"
  | .lpush _ _ => "LPUSH"
  | .linterp   => "LINTERP"
  | .sub _ _   => "SUB"

/-- A pseudo-command is replaced by the command it expands to (R62); a command stands for itself. -/
def Instr.expand : Instr → Instr
  | .add a b   => .add a b
  | .mul a b   => .mul a b
  | .div a b   => .div a b
  | .inv a     => .inv a
  | .pclr      => .pclr
  | .ppush c   => .ppush c
  | .peval x   => .peval x
  | .lclr      => .lclr
  | .lpush x y => .lpush x y
  | .linterp   => .linterp
  | .sub a b   => .add a b

end Sys2Proof
end

