-- ==== Sys2Proof/WellFormed.lean ====
section
/-! DEFINITION. Which terms of `Instr` are commands of the block.

Every operand is a byte and all 256 values of an operand are legal (spec/30_encoding.md R60), so the
operands need no check. The one check is that the term is one of the ten rows of R56: `SUB` is
notation, without a word of its own (R62: "There is no separate subtract opcode"), and
`Instr.expand` turns it into the command it stands for. -/

namespace Sys2Proof

/-- The term is one of the ten commands of R56. -/
def Instr.wellFormed : Instr → Bool
  | .add _ _   => true
  | .mul _ _   => true
  | .div _ _   => true
  | .inv _     => true
  | .pclr      => true
  | .ppush _   => true
  | .peval _   => true
  | .lclr      => true
  | .lpush _ _ => true
  | .linterp   => true
  | .sub _ _   => false

end Sys2Proof
end

