-- ==== Sys2Proof/Decode.lean ====
section
/-! DEFINITION. Command words: their fields, the decoder, the encoder and the opcode map
(spec/30_encoding.md sections 2 and 3).

The decoder is total on the 2^20 words (R64) and rejects by name; the machine answers a rejected
word with the condition `IllegalCommand` (R58). -/

namespace Sys2Proof

/-- `cmd.op = cmd[19:16]` (R54). -/
def cmdOp (w : CmdWord) : BitVec 4 := w.extractLsb' 16 4

/-- `cmd.a = cmd[15:8]` (R54). -/
def cmdA (w : CmdWord) : Byte := w.extractLsb' 8 8

/-- `cmd.b = cmd[7:0]` (R54). -/
def cmdB (w : CmdWord) : Byte := w.extractLsb' 0 8

/-- The command word with the fields `op`, `a`, `b` (R54). -/
def mkCmd (op : BitVec 4) (a b : Byte) : CmdWord := op ++ a ++ b

/-- Why a word is no command (R58). -/
inductive IllegalWord where
  /-- `op` is 0x0 or 0xB to 0xF. -/
  | reservedOpcode (op : BitVec 4)
  /-- `op` is 0x4, 0x6 or 0x7 with `b` not zero, or 0x5, 0x8 or 0xA with `a` or `b` not zero. -/
  | mustBeZero (op : BitVec 4)
  deriving DecidableEq, Repr

/-- The decoder: R56 for the legal words, R57 and R58 for the others. `SUB` is not among its answers,
since its words are those of `ADD` (R62). -/
def decode (w : CmdWord) : Except IllegalWord Instr :=
  match (cmdOp w).toNat with
  | 0x1 => .ok (.add (cmdA w) (cmdB w))
  | 0x2 => .ok (.mul (cmdA w) (cmdB w))
  | 0x3 => .ok (.div (cmdA w) (cmdB w))
  | 0x4 => if cmdB w = 0#8 then .ok (.inv (cmdA w)) else .error (.mustBeZero (cmdOp w))
  | 0x5 => if cmdA w = 0#8 ∧ cmdB w = 0#8 then .ok .pclr else .error (.mustBeZero (cmdOp w))
  | 0x6 => if cmdB w = 0#8 then .ok (.ppush (cmdA w)) else .error (.mustBeZero (cmdOp w))
  | 0x7 => if cmdB w = 0#8 then .ok (.peval (cmdA w)) else .error (.mustBeZero (cmdOp w))
  | 0x8 => if cmdA w = 0#8 ∧ cmdB w = 0#8 then .ok .lclr else .error (.mustBeZero (cmdOp w))
  | 0x9 => .ok (.lpush (cmdA w) (cmdB w))
  | 0xA => if cmdA w = 0#8 ∧ cmdB w = 0#8 then .ok .linterp else .error (.mustBeZero (cmdOp w))
  | _   => .error (.reservedOpcode (cmdOp w))

/-- The encoder: the command word of a command (R56); a must-be-zero field is zero. A
pseudo-command has the word of the command it expands to (R62). -/
def encode : Instr → CmdWord
  | .add a b   => mkCmd 0x1#4 a b
  | .mul a b   => mkCmd 0x2#4 a b
  | .div a b   => mkCmd 0x3#4 a b
  | .inv a     => mkCmd 0x4#4 a 0#8
  | .pclr      => mkCmd 0x5#4 0#8 0#8
  | .ppush c   => mkCmd 0x6#4 c 0#8
  | .peval x   => mkCmd 0x7#4 x 0#8
  | .lclr      => mkCmd 0x8#4 0#8 0#8
  | .lpush x y => mkCmd 0x9#4 x y
  | .linterp   => mkCmd 0xA#4 0#8 0#8
  | .sub a b   => mkCmd 0x1#4 a b

/-- One row of the opcode map (R56): a word `w` selects the row when `w &&& mask = bits`. -/
structure OpcodeRow where
  mnemonic : String
  bits     : CmdWord
  mask     : CmdWord
  deriving DecidableEq, Repr

/-- The opcode map of R56, copied from its table; the decoder does not use it. -/
def opcodeMap : List OpcodeRow :=
  [ ⟨"ADD",     0x10000#20, 0xF0000#20⟩,
    ⟨"MUL",     0x20000#20, 0xF0000#20⟩,
    ⟨"DIV",     0x30000#20, 0xF0000#20⟩,
    ⟨"INV",     0x40000#20, 0xF00FF#20⟩,
    ⟨"PCLR",    0x50000#20, 0xFFFFF#20⟩,
    ⟨"PPUSH",   0x60000#20, 0xF00FF#20⟩,
    ⟨"PEVAL",   0x70000#20, 0xF00FF#20⟩,
    ⟨"LCLR",    0x80000#20, 0xFFFFF#20⟩,
    ⟨"LPUSH",   0x90000#20, 0xF0000#20⟩,
    ⟨"LINTERP", 0xA0000#20, 0xFFFFF#20⟩ ]

/-- The word selects the row (R56). -/
def selectsRow (w : CmdWord) (r : OpcodeRow) : Bool := w &&& r.mask == r.bits

/-- The 20-bit command word among the low `nbits` bits of `w`, numbered as spec/opcode_table.json
numbers them. The word travels on a parallel port (R50), so there is no byte order to undo (R35). -/
def tableCmdWord (nbits w : Nat) : CmdWord := BitVec.ofNat 20 (w % 2 ^ nbits)

/-- The command this model's decoder reads from the bits `w` of a row of the opcode table; `none` where
it refuses. Bits above bit 19 do not exist on the command port, so a number that needs them is no
command word. -/
def decodeTableWord (nbits w : Nat) : Option Instr :=
  if w % 2 ^ nbits < 2 ^ 20 then
    match decode (tableCmdWord nbits w) with
    | .ok i    => some i
    | .error _ => none
  else none

end Sys2Proof
end

