-- ==== Sys2Proof/Machine/State.lean ====
section
/-! DEFINITION. The state of the block (spec/10_state.md R19 to R25; spec/30_encoding.md R50, R51),
the reasons a step can stop, and the state after reset.

The block has no registers, program counter, flags, modes or memory (R10, R11, R12, R30, R144). Its
state is the two counters and the buffers, the command in progress and the response port; beside
them stands `inputs`, what the host drives on the input ports at the coming steps. -/

namespace Sys2Proof.Machine

/-- The outcome of a command, carried by the status field of its response (R131). -/
inductive Status where
  /-- Success. -/
  | ok
  /-- `DIV` with divisor zero, `INV` of zero (R132). -/
  | divisionByZero
  /-- A push into a full buffer, an evaluation of an empty one (R133). -/
  | invalidParameters
  /-- Two points held have the same x-coordinate (R134). -/
  | duplicateShare
  /-- Fewer than two points held (R135). -/
  | inconsistentShares
  /-- The word is none of the ten commands (R137). -/
  | illegalCommand
  deriving DecidableEq, Repr

/-- One entry of the point buffers (R22): `LX[j]` and `LY[j]`, which are always written together and
read together (R34). -/
structure Point where
  x : Byte
  y : Byte
  deriving DecidableEq, Repr

/-- What the host drives on the block's input ports during one step (R50): `reset`, `cmd_valid` and
`cmd`, `reset` as asserted or not, whatever its polarity. -/
structure PortIn where
  reset    : Bool
  cmdValid : Bool
  cmd      : CmdWord
  deriving DecidableEq, Repr

/-- The state. -/
structure State where
  /-- `PCOEF[0..PCNT-1]`, index 0 first (R20). Its length is the counter `PCNT` (R19, R23). -/
  pcoef : List Byte
  /-- `LX[0..LCNT-1]` and `LY[0..LCNT-1]`, index 0 first (R22). Its length is the counter `LCNT`
  (R21, R23). -/
  points : List Point
  /-- The command word accepted and not yet answered; `none` when the block is idle (R51, R25). -/
  inProgress : Option CmdWord
  /-- The response port: `some` word when `rsp_valid` holds, `none` when it does not (R50). -/
  rsp : Option RspWord
  /-- What the host drives on the input ports at the coming steps, the next step first; when the
  list is empty the host drives nothing. -/
  inputs : List PortIn
  deriving DecidableEq, Repr

/-- Why the model stops. Under legal parameters of the field no command reaches either: they are what the spec forbids the block to do
(R16), and a proof that no step faults is a proof that it does not. Both are safe. -/
inductive Fault where
  /-- A read of a `LOG` entry without content: `LOG[0x00]`, which "must never be read" (R16), the only
  such entry when `GEN` is a generator. Raised by `readLog`; safe. -/
  | undefinedLogEntry
  /-- A read of `EXP` at an index above 255 (R31: no rule computes one). Raised by `readExp`; safe. -/
  | expIndexOutOfRange
  deriving DecidableEq, Repr

/-- Why the model gives an instruction no meaning. -/
inductive Refusal where
  /-- The instruction has no meaning yet; raised by a refused arm of `exec` (there is none); safe. -/
  | notModelled (mnemonic : String)
  deriving DecidableEq, Repr

/-- The state after reset (R25, R150): both counters 0, no command in progress, no response, and
nothing driven by the host. Buffer entries at or above a counter are not represented (R23). -/
def State.reset : State :=
  { pcoef := [], points := [], inProgress := none, rsp := none, inputs := [] }

end Sys2Proof.Machine
end

