-- ==== Sys2Proof/Machine/Flags.lean ====
section
/-! DEFINITION. Status codes, the response word, and the tests that raise a condition.

The block has no flags (spec/10_state.md R12). In their place stands the status of each response
(spec/60_exceptions.md R131) and, for each command, the one test that can raise a condition (R140). -/

namespace Sys2Proof.Machine

/-- The status codes of R131. -/
def statusCode : Status → BitVec 4
  | .ok                 => 0x0#4
  | .divisionByZero     => 0x1#4
  | .invalidParameters  => 0x2#4
  | .duplicateShare     => 0x3#4
  | .inconsistentShares => 0x4#4
  | .illegalCommand     => 0x5#4

/-- The status of a code (R131); 0x6 to 0xF are never produced. -/
def statusOfCode (c : BitVec 4) : Option Status :=
  match c.toNat with
  | 0x0 => some .ok
  | 0x1 => some .divisionByZero
  | 0x2 => some .invalidParameters
  | 0x3 => some .duplicateShare
  | 0x4 => some .inconsistentShares
  | 0x5 => some .illegalCommand
  | _   => none

/-- The response word of a status and a value (R55): the status in bits 11:8, the value in 7:0. -/
def rspWord (st : Status) (v : Byte) : RspWord := statusCode st ++ v

/-- The status field of a response word (R55). -/
def rspStatus (r : RspWord) : BitVec 4 := r.extractLsb' 8 4

/-- The value field of a response word (R55). -/
def rspValue (r : RspWord) : Byte := r.extractLsb' 0 8

/-- The counter `PCNT` (R19). -/
def State.pcnt (s : State) : Nat := s.pcoef.length

/-- The counter `LCNT` (R21). -/
def State.lcnt (s : State) : Nat := s.points.length

/-- The test of `DIV` on its divisor and of `INV` on its operand (R82, R83). -/
def isZero (v : Byte) : Bool := v == 0#8

/-- The test of `PPUSH` (R93): `PCNT` is 255. A longer list is no state of the block. -/
def State.coefficientsFull (s : State) : Bool := Config.pcap ≤ s.pcnt

/-- The test of `PEVAL` (R94): `PCNT` is 0. -/
def State.coefficientsEmpty (s : State) : Bool := s.pcnt == 0

/-- The test of `LPUSH` (R102): `LCNT` is 255. A longer list is no state of the block. -/
def State.pointsFull (s : State) : Bool := Config.lcap ≤ s.lcnt

/-- The first test of `LINTERP` (R103): fewer than two points. -/
def State.tooFewPoints (s : State) : Bool := s.lcnt < 2

/-- Two of the points have the same x-coordinate, whatever their y (R104). -/
def hasDuplicateX : List Point → Bool
  | []      => false
  | p :: ps => ps.any (fun q => q.x == p.x) || hasDuplicateX ps

/-- The second test of `LINTERP` (R103). -/
def State.duplicatePoints (s : State) : Bool := hasDuplicateX s.points

end Sys2Proof.Machine
end

