-- ==== Sys2Proof/Machine/Operands.lean ====
section
/-! DEFINITION. The index spaces a command reaches beside its own operand bytes (spec/20_memory.md
R31 to R34): the constant tables `EXP` and `LOG`, and the writes to the coefficient and point
buffers. The operand bytes themselves are the fields of the command word (R60, Decode.lean). -/

namespace Sys2Proof.Machine

/-- `v` times `t`, reduced by `POLY` (R15): `v` shifted left one bit to nine bits; if bit 8 is 1,
exclusive-or with `POLY`; bits 7:0 kept. -/
def xtime (poly : BitVec 9) (v : Byte) : Byte :=
  let v9 : BitVec 9 := v ++ 0#1
  (if v9.getLsbD 8 then v9 ^^^ poly else v9).setWidth 8

/-- The loop of `mul_ref` (R78), with `k` of its eight rounds to go: the round `n = 8 - k` adds `a`
to `r` if bit `n` of `b` is 1, and multiplies `a` by `t`. -/
def mulRefLoop (poly : BitVec 9) (b : Byte) : Nat → Byte → Byte → Byte
  | 0,     r, _ => r
  | k + 1, r, a => mulRefLoop poly b k (if b.getLsbD (7 - k) then r ^^^ a else r) (xtime poly a)

/-- `mul_ref(a, b)` (R78): the product of `a` and `b` as polynomials over GF(2), reduced modulo
`POLY`. It is the reference, "not the hardware's method"; the block multiplies by tables. -/
def mulRef (poly : BitVec 9) (a b : Byte) : Byte := mulRefLoop poly b 8 0#8 a

/-- `xtime_gen(v)`, the product of `v` and `GEN` (R15): the shift-and-reduce step where `GEN` is
0x02, and the product by reference for any other `GEN`. -/
def timesGen (F : FieldParams) (v : Byte) : Byte :=
  if F.gen = 0x02#8 then xtime F.poly v else mulRef F.poly v F.gen

/-- The `i`-th power of `GEN`, as the loop of R15 reaches it: start at 0x01, multiply `i` times. -/
def powGen (F : FieldParams) : Nat → Byte
  | 0     => 0x01#8
  | i + 1 => timesGen F (powGen F i)

/-- A read of `EXP[i]` (R13): `GEN^i` for `i` from 0 to 255. -/
def readExp (F : FieldParams) (i : Nat) : Except Fault Byte :=
  if i ≤ 255 then .ok (powGen F i) else .error .expIndexOutOfRange

/-- The search for `v` among the `k` powers of `GEN` that follow, of which `cur = GEN^i` is the
first. -/
def logSearch (F : FieldParams) (v : Byte) : Nat → Nat → Byte → Option Nat
  | 0,     _, _   => none
  | k + 1, i, cur => if cur = v then some i else logSearch F v k (i + 1) (timesGen F cur)

/-- A read of `LOG[v]` (R14): the index `i` from 0 to 254 with `EXP[i] = v`. `LOG[0x00]` has no
content, and a read of it is a fault of the model (R16). -/
def readLog (F : FieldParams) (v : Byte) : Except Fault Nat :=
  if v = 0#8 then .error .undefinedLogEntry
  else
    match logSearch F v Config.order 0 0x01#8 with
    | some i => .ok i
    | none   => .error .undefinedLogEntry

/-- `PCNT <- 0` (R92); the entries become unobservable (R23). -/
def State.clearCoefficients (s : State) : State := { s with pcoef := [] }

/-- `PCOEF[PCNT] <- c; PCNT <- PCNT + 1` (R93). -/
def State.pushCoefficient (c : Byte) (s : State) : State := { s with pcoef := s.pcoef ++ [c] }

/-- `LCNT <- 0` (R101); the entries become unobservable (R23). -/
def State.clearPoints (s : State) : State := { s with points := [] }

/-- `LX[LCNT] <- x; LY[LCNT] <- y; LCNT <- LCNT + 1` (R102). -/
def State.pushPoint (x y : Byte) (s : State) : State := { s with points := s.points ++ [⟨x, y⟩] }

end Sys2Proof.Machine
end

