-- ==== Sys2Proof/Machine/Ops.lean ====
section
/-! DEFINITION. The operations every command and every step share: how a command ends
(`respond`, `raise`), and what the ports and reset do (spec/30_encoding.md R50 to R53).

Taking a condition is `raise`; there is no return from one (spec/60_exceptions.md R142: after a
condition the block is idle and accepts the next command exactly as after a success). -/

namespace Sys2Proof.Machine

/-- The outcome of a step of this machine. -/
abbrev Result := Host.Outcome State Fault Refusal

/-- `respond(S, v)` (spec/00_scope.md section 7): the response `{S, v}` is presented and the block
is idle again (R51). -/
def State.respond (st : Status) (v : Byte) (s : State) : State :=
  { s with rsp := some (rspWord st v), inProgress := none }

/-- `raise <Condition>`: "make no state change at all" and respond with the code of the condition
and the value 0x00 (R130, R136, R141). -/
def State.raise (c : Status) (s : State) : State := s.respond c 0#8

/-- A command that succeeds with the computed byte, or stops where the computation read a table entry
that does not exist. -/
def respondWith (v : Except Fault Byte) (s : State) : Result :=
  match v with
  | .ok v    => .next (s.respond .ok v)
  | .error f => .fault f

/-- A counter as the value of a response (R55). -/
def countByte (n : Nat) : Byte := BitVec.ofNat 8 n

/-- The host drives nothing. -/
def PortIn.quiet : PortIn := { reset := false, cmdValid := false, cmd := 0#20 }

/-- The host offers the word `w` (R50). -/
def PortIn.offer (w : CmdWord) : PortIn := { reset := false, cmdValid := true, cmd := w }

/-- The host asserts reset (R52). -/
def PortIn.assertReset : PortIn := { reset := true, cmdValid := false, cmd := 0#20 }

/-- What the host drives on the input ports at this step. -/
def State.portIn (s : State) : PortIn := s.inputs.headD PortIn.quiet

/-- The state once this step's inputs are sampled. -/
def State.sampled (s : State) : State := { s with inputs := s.inputs.tail }

/-- The output port `rsp_valid` (R50). -/
def State.rspValid (s : State) : Bool := s.rsp.isSome

/-- The output port `cmd_ready` (R50): the block is idle, and reset is not asserted (R52). -/
def State.cmdReady (s : State) : Bool := s.inProgress.isNone && !s.portIn.reset

/-- Reset (R25, R150, R151): the state after reset, whatever the block was doing. What the host will
drive afterwards is not the block's to change. -/
def State.applyReset (s : State) : State := { State.reset with inputs := s.inputs }

/-- A command is accepted (R51): the word is the command in progress, and `rsp` no longer holds the
response to the most recently accepted command (R50). -/
def State.accept (w : CmdWord) (s : State) : State := { s with inProgress := some w, rsp := none }

/-- An idle block at the ports (R51): it accepts the word offered, if one is; otherwise nothing
changes. -/
def State.idleStep (p : PortIn) (s : State) : State := if p.cmdValid then s.accept p.cmd else s

end Sys2Proof.Machine
end

