-- ==== Sys2Proof/Machine/Field.lean ====
section
/-! DEFINITION. The functions of the adder, multiplier and divider (spec/40_field_add.md R70, R71;
spec/41_field_mul.md R75; spec/42_field_div_inv.md R80, R81), with the field's parameters as an
argument. A function that reads a table answers a fault where the entry it reads does not exist. -/

namespace Sys2Proof.Machine

/-- `gf_add(a, b)` (R70). -/
def gfAdd (a b : Byte) : Byte := a ^^^ b

/-- `gf_sub(a, b)` (R71). -/
def gfSub (a b : Byte) : Byte := gfAdd a b

/-- `(la + lb) mod 255`, the index of R75 into `EXP`. -/
def mulIndex (la lb : Nat) : Nat := (la + lb) % Config.order

/-- `(la - lb) mod 255` with the non-negative remainder, the index of R81 into `EXP`. -/
def divIndex (la lb : Nat) : Nat := (((la : Int) - (lb : Int)) % (Config.order : Int)).toNat

/-- `gf_mul(a, b)` (R75). -/
def gfMul (F : FieldParams) (a b : Byte) : Except Fault Byte :=
  if a = 0#8 ∨ b = 0#8 then .ok 0#8
  else do
    let la ← readLog F a
    let lb ← readLog F b
    readExp F (mulIndex la lb)

/-- `gf_inv(a)` (R80), for nonzero `a`; at zero it reads `LOG[0]`, a fault. -/
def gfInv (F : FieldParams) (a : Byte) : Except Fault Byte := do
  let la ← readLog F a
  readExp F (255 - la)

/-- `gf_div(a, b)` (R81), for nonzero `b`; at `b` zero and `a` not, it reads `LOG[0]`, a fault. -/
def gfDiv (F : FieldParams) (a b : Byte) : Except Fault Byte :=
  if a = 0#8 then .ok 0#8
  else do
    let la ← readLog F a
    let lb ← readLog F b
    readExp F (divIndex la lb)

end Sys2Proof.Machine
end

