-- ==== Sys2Proof/Machine/Adder.lean ====
section
/-! DEFINITION. The adder unit: `ADD` and the pseudo-command `SUB` (spec/40_field_add.md). -/

namespace Sys2Proof.Machine

/-- `ADD a, b` (R72). -/
def execAdd (a b : Byte) (s : State) : Result := .next (s.respond .ok (gfAdd a b))

/-- `SUB a, b` (R62, R71): subtraction is the adder's function. -/
def execSub (a b : Byte) (s : State) : Result := .next (s.respond .ok (gfSub a b))

end Sys2Proof.Machine
end

