-- ==== Sys2Proof/Machine/Divider.lean ====
section
/-! DEFINITION. The inversion/divider unit: `DIV` and `INV` (spec/42_field_div_inv.md). -/

namespace Sys2Proof.Machine

/-- `DIV a, b` (R82), under the parameters `F`: the divisor test comes first, whatever `a` is. -/
def execDivFor (F : FieldParams) (a b : Byte) (s : State) : Result :=
  if isZero b then .next (s.raise .divisionByZero) else respondWith (gfDiv F a b) s

/-- `DIV a, b` (R82), under the default parameters. -/
def execDiv (a b : Byte) (s : State) : Result := execDivFor Config.field a b s

/-- `INV a` (R83), under the parameters `F`. -/
def execInvFor (F : FieldParams) (a : Byte) (s : State) : Result :=
  if isZero a then .next (s.raise .divisionByZero) else respondWith (gfInv F a) s

/-- `INV a` (R83), under the default parameters. -/
def execInv (a : Byte) (s : State) : Result := execInvFor Config.field a s

end Sys2Proof.Machine
end

