-- ==== Sys2Proof/Machine/Evaluator.lean ====
section
/-! DEFINITION. The polynomial evaluator unit: `PCLR`, `PPUSH`, `PEVAL` (spec/43_poly_eval.md). -/

namespace Sys2Proof.Machine

/-- The loop of R90 over the coefficients still to come, the highest first. -/
def hornerLoop (F : FieldParams) (x : Byte) : List Byte → Byte → Except Fault Byte
  | [],      acc => .ok acc
  | c :: cs, acc => do
    let p ← gfMul F acc x
    hornerLoop F x cs (gfAdd p c)

/-- `poly_eval(c, k, x)` (R90) with `k` the length of `c`: Horner's method, highest coefficient
first. -/
def polyEval (F : FieldParams) (c : List Byte) (x : Byte) : Except Fault Byte :=
  hornerLoop F x c.reverse 0#8

/-- `PCLR` (R92). -/
def execPclr (s : State) : Result := .next (s.clearCoefficients.respond .ok 0#8)

/-- `PPUSH c` (R93): the value of the response is the new count. -/
def execPpush (c : Byte) (s : State) : Result :=
  if s.coefficientsFull then .next (s.raise .invalidParameters)
  else
    let t := s.pushCoefficient c
    .next (t.respond .ok (countByte t.pcnt))

/-- `PEVAL x` (R94), under the parameters `F`. -/
def execPevalFor (F : FieldParams) (x : Byte) (s : State) : Result :=
  if s.coefficientsEmpty then .next (s.raise .invalidParameters)
  else respondWith (polyEval F s.pcoef x) s

/-- `PEVAL x` (R94), under the default parameters. -/
def execPeval (x : Byte) (s : State) : Result := execPevalFor Config.field x s

end Sys2Proof.Machine
end

