-- ==== Sys2Proof/Machine/Interpolator.lean ====
section
/-! DEFINITION. The Lagrange interpolator core: `LCLR`, `LPUSH`, `LINTERP` (spec/44_lagrange.md). -/

namespace Sys2Proof.Machine

/-- The inner loop of R100: the weight of the point of index `j`, whose x-coordinate is `xj`, over the
points still to come, of which the first has index `i`. -/
def weightLoop (F : FieldParams) (j : Nat) (xj : Byte) : Nat → List Point → Byte → Except Fault Byte
  | _, [],      w => .ok w
  | i, p :: ps, w =>
    if i = j then weightLoop F j xj (i + 1) ps w
    else do
      let q ← gfDiv F p.x (gfSub p.x xj)
      let w' ← gfMul F w q
      weightLoop F j xj (i + 1) ps w'

/-- The outer loop of R100: the weighted sum over the points still to come, of which the first has
index `j`; `pts` are all the points. -/
def lagrangeLoop (F : FieldParams) (pts : List Point) : Nat → List Point → Byte → Except Fault Byte
  | _, [],      acc => .ok acc
  | j, p :: ps, acc => do
    let w ← weightLoop F j p.x 0 pts 0x01#8
    let v ← gfMul F p.y w
    lagrangeLoop F pts (j + 1) ps (gfAdd acc v)

/-- `lagrange0(xs, ys, m)` (R100), `m` the number of points. -/
def lagrange0 (F : FieldParams) (pts : List Point) : Except Fault Byte :=
  lagrangeLoop F pts 0 pts 0#8

/-- `LCLR` (R101). -/
def execLclr (s : State) : Result := .next (s.clearPoints.respond .ok 0#8)

/-- `LPUSH x, y` (R102): the value of the response is the new count; no other check. -/
def execLpush (x y : Byte) (s : State) : Result :=
  if s.pointsFull then .next (s.raise .invalidParameters)
  else
    let t := s.pushPoint x y
    .next (t.respond .ok (countByte t.lcnt))

/-- `LINTERP` (R103), under the parameters `F`: both tests come before any arithmetic. -/
def execLinterpFor (F : FieldParams) (s : State) : Result :=
  if s.tooFewPoints then .next (s.raise .inconsistentShares)
  else if s.duplicatePoints then .next (s.raise .duplicateShare)
  else respondWith (lagrange0 F s.points) s

/-- `LINTERP` (R103), under the default parameters. -/
def execLinterp (s : State) : Result := execLinterpFor Config.field s

end Sys2Proof.Machine
end

