-- ==== Sys2Proof/Machine/Multiplier.lean ====
section
/-! DEFINITION. The multiplier unit: `MUL` (spec/41_field_mul.md). -/

namespace Sys2Proof.Machine

/-- `MUL a, b` (R76), under the parameters `F`. -/
def execMulFor (F : FieldParams) (a b : Byte) (s : State) : Result := respondWith (gfMul F a b) s

/-- `MUL a, b` (R76), under the default parameters. -/
def execMul (a b : Byte) (s : State) : Result := execMulFor Config.field a b s

end Sys2Proof.Machine
end

