-- ==== Sys2Proof/Machine/Dispatch.lean ====
section
/-! DEFINITION. One arm per command (spec/30_encoding.md R56, R62): its meaning, called directly. -/

namespace Sys2Proof.Machine

/-- What a command does (R51: "performs the command's rule, in full"). -/
def exec (i : Instr) (s : State) : Host.Outcome State Fault Refusal :=
  match i with
  | .add a b => Sys2Proof.Machine.execAdd a b s
  | .mul a b => Sys2Proof.Machine.execMul a b s
  | .div a b => Sys2Proof.Machine.execDiv a b s
  | .inv a => Sys2Proof.Machine.execInv a s
  | .pclr => Sys2Proof.Machine.execPclr s
  | .ppush c => Sys2Proof.Machine.execPpush c s
  | .peval x => Sys2Proof.Machine.execPeval x s
  | .lclr => Sys2Proof.Machine.execLclr s
  | .lpush x y => Sys2Proof.Machine.execLpush x y s
  | .linterp => Sys2Proof.Machine.execLinterp s
  | .sub a b => Sys2Proof.Machine.execSub a b s

end Sys2Proof.Machine
end

