-- ==== Sys2Proof/Machine/Transaction.lean ====
section
/-! DEFINITION. A command word from acceptance to response (spec/30_encoding.md R51, R58). -/

namespace Sys2Proof.Machine

/-- The command in progress is performed in full, `ex` being what each command does: the decoder comes
first (R140); a legal word runs as the command it decodes to, an illegal one is answered
`IllegalCommand` and changes nothing (R58). -/
def runWith (ex : Instr → State → Result) (w : CmdWord) (s : State) : Result :=
  match decode w with
  | .ok i    => ex i s
  | .error _ => .next (s.raise .illegalCommand)

/-- One step at the ports, once the inputs `p` are sampled, `ex` being what each command does: reset
overrides everything (R52); a busy block finishes the command in progress and accepts nothing (R51);
an idle one accepts the word offered. -/
def portStepWith (ex : Instr → State → Result) (p : PortIn) (s : State) : Result :=
  if p.reset then .next s.applyReset
  else
    match s.inProgress with
    | some w => runWith ex w s
    | none   => .next (s.idleStep p)

/-- The command in progress, under the default parameters. -/
def runCommand (w : CmdWord) (s : State) : Result := runWith exec w s

/-- One step at the ports, under the default parameters. -/
def portStep (p : PortIn) (s : State) : Result := portStepWith exec p s

/-- The word is the command in progress, and the host drives nothing at the next step. -/
def State.withCommand (w : CmdWord) (s : State) : State :=
  { s with inProgress := some w, inputs := PortIn.quiet :: s.inputs }

end Sys2Proof.Machine
end

