-- ==== Sys2Proof/Machine/Step.lean ====
section
/-! DEFINITION. One step of the machine, and the placing of a command word for the next step. -/

namespace Sys2Proof.Machine

/-- One step: what the host drives on the input ports is sampled, and the block acts on it. A command
takes two steps, one that accepts it and one that performs it and presents its response; a step is
no unit of time (`LATENCY` is unspecified, R51 and R159). -/
def step (s : State) : Host.Outcome State Fault Refusal := portStep s.portIn s.sampled

/-- The state `s` with the word `w`, numbered as spec/opcode_table.json numbers it, accepted as the
command in progress, so that the next step performs it: there is no program counter to fetch at
(R11), and a command comes from the host alone (notes/assumptions/8.md). -/
def State.withFetchWord (s : State) (nbits w : Nat) : State := s.withCommand (tableCmdWord nbits w)

end Sys2Proof.Machine
end

