-- ==== Sys2Proof/Machine/HostProcedures.lean ====
section
/-! DEFINITION. The host's procedures around the block (spec/47_host_procedures.md R110 to R125):
share generation, secret recovery, share encoding and decoding.

They are host software, out of the scope of the hardware (spec/00_scope.md section 4), and nothing of
the machine depends on them; they are kept because the block "is only correct to use under those
procedures". The random coefficients are an argument (R113). -/

namespace Sys2Proof.Machine

/-- A share (R124): an x-coordinate and one y-byte per byte of the secret. -/
structure Share where
  x : Byte
  y : List Byte
  deriving DecidableEq, Repr

/-- How a host procedure fails. -/
inductive HostFailure where
  /-- With a condition of the document that the block knows too, found by the host or answered by the
  block (R110, R116, R117, R120). -/
  | condition (c : Status)
  /-- `MalformedShare` (R123), which the block cannot raise (R138). -/
  | malformedShare
  /-- The spec does not state what happens (R122: recovery of two or more shares with distinct
  x-coordinates and empty y-sequences). -/
  | notStated
  /-- The block gave no legal response to a command; R53 and R131 exclude it. -/
  | noResponse
  deriving DecidableEq, Repr

/-- `step : State -> Cmd20 -> State x Rsp12` of R51, the response standing in the state's response
port: the host offers the word `w` to an idle block, then drives nothing until the response. -/
def transact (w : CmdWord) (s : State) : Result :=
  match step { s with inputs := [PortIn.offer w, PortIn.quiet] } with
  | .next t    => step t
  | .fault f   => .fault f
  | .refused r => .refused r

/-- The host issues one command and takes its response, testing the status before it uses the value
(R55, R158). -/
def issue (i : Instr) (s : State) : Except HostFailure (Byte × State) :=
  match transact (encode i) s with
  | .next t =>
    match t.rsp with
    | none   => .error .noResponse
    | some r =>
      match statusOfCode (rspStatus r) with
      | some .ok => .ok (rspValue r, t)
      | some c   => .error (.condition c)
      | none     => .error .noResponse
  | .fault _   => .error .noResponse
  | .refused _ => .error .noResponse

/-- The host issues the commands of a list in order, stopping at the first that does not answer `OK`;
the values of the responses, in order. -/
def issueAll : List Instr → State → Except HostFailure (List Byte × State)
  | [],      s => .ok ([], s)
  | i :: is, s => do
    let (v, t) ← issue i s
    let (vs, u) ← issueAll is t
    .ok (v :: vs, u)

/-- The x-coordinate of the share of index `j`: `1, 2, ..., n` (R111). -/
def shareX (j : Nat) : Byte := BitVec.ofNat 8 (j + 1)

/-- The commands of `generate` for one byte position (R115), `cs` its `k` coefficients, the secret
byte first: `1 + k + n` commands. -/
def generateCommands (cs : List Byte) (n : Nat) : List Instr :=
  .pclr :: cs.map .ppush ++ (List.range n).map fun j => .peval (shareX j)

/-- The `k` coefficients of byte position `i` (R112): the secret byte and `k - 1` bytes drawn by the
host, `r i t` for `t` from 1. -/
def coefficientsAt (r : Nat → Nat → Byte) (k i : Nat) (b : Byte) : List Byte :=
  b :: (List.range (k - 1)).map fun t => r i (t + 1)

/-- The y-bytes of all shares at each byte position, from position `i` on (R115). -/
def generateColumns (r : Nat → Nat → Byte) (k n : Nat) :
    Nat → List Byte → State → Except HostFailure (List (List Byte) × State)
  | _, [],      s => .ok ([], s)
  | i, b :: bs, s => do
    let (vs, t) ← issueAll (generateCommands (coefficientsAt r k i b) n) s
    let (cols, u) ← generateColumns r k n (i + 1) bs t
    .ok (vs.drop (1 + k) :: cols, u)

/-- The `n` shares whose y-bytes, byte position by byte position, are `cols` (R114). -/
def sharesOf (n : Nat) (cols : List (List Byte)) : List Share :=
  (List.range n).map fun j => { x := shareX j, y := cols.map fun c => c.getD j 0#8 }

/-- `generate(secret, k, n, rng)` (R110 to R115), on a block in state `s`. The parameters are checked
before any command is issued. -/
def generate (secret : List Byte) (k n : Nat) (r : Nat → Nat → Byte) (s : State) :
    Except HostFailure (List Share × State) :=
  if secret ≠ [] ∧ 1 ≤ k ∧ k ≤ n ∧ n ≤ 255 then do
    let (cols, t) ← generateColumns r k n 0 secret s
    .ok (sharesOf n cols, t)
  else .error (.condition .invalidParameters)

/-- The commands of `recover` for byte position `i` (R120): `m + 2` commands. -/
def recoverCommands (shares : List Share) (i : Nat) : List Instr :=
  .lclr :: shares.map (fun sh => .lpush sh.x (sh.y.getD i 0#8)) ++ [.linterp]

/-- The bytes recovered at `l` byte positions from position `i` on (R120): at each, the value of the
last response, that of `LINTERP`. -/
def recoverLoop (shares : List Share) : Nat → Nat → State → Except HostFailure (List Byte × State)
  | 0,     _, s => .ok ([], s)
  | l + 1, i, s => do
    let (vs, t) ← issueAll (recoverCommands shares i) s
    let (bs, u) ← recoverLoop shares l (i + 1) t
    .ok (vs.getLastD 0#8 :: bs, u)

/-- `recover(shares)` (R116 to R120), on a block in state `s`. Before any command is issued the host checks
that there are at least two shares, that their y-sequences have one length (R117), and that their
x-coordinates are distinct (R116, which asks it of any y-sequences; R120 lets the host check). -/
def recover : List Share → State → Except HostFailure (List Byte × State)
  | sh :: sh' :: rest, s =>
    if (sh' :: rest).any (fun q => q.y.length != sh.y.length) then
      .error (.condition .inconsistentShares)
    else if ¬ ((sh :: sh' :: rest).map Share.x).Nodup then .error (.condition .duplicateShare)
    else if sh.y = [] then .error .notStated
    else recoverLoop (sh :: sh' :: rest) sh.y.length 0 s
  | _, _ => .error (.condition .inconsistentShares)

/-- The encoding of a share (R121): the x-coordinate byte, then the y-sequence. -/
def encodeShare (sh : Share) : List Byte := sh.x :: sh.y

/-- The decoding of a share (R122): `MalformedShare` on empty input, and no other check. -/
def decodeShare : List Byte → Except HostFailure Share
  | []     => .error .malformedShare
  | x :: y => .ok { x := x, y := y }

end Sys2Proof.Machine
end

