-- ==== Sys2Proof/Machine/Parameters.lean ====
section
/-! DEFINITION. The machine with the parameters `POLY` and `GEN` as an argument (spec/00_scope.md R3;
spec/92_eei_decisions.md, open parameters). `exec`, `step` and `core` are its instance at the default
parameters `Config.field`. -/

namespace Sys2Proof.Machine

/-- What a command does, under the parameters `F`; the adder and the buffers do not use them. -/
def execFor (F : FieldParams) (i : Instr) (s : State) : Result :=
  match i with
  | .add a b   => execAdd a b s
  | .mul a b   => execMulFor F a b s
  | .div a b   => execDivFor F a b s
  | .inv a     => execInvFor F a s
  | .pclr      => execPclr s
  | .ppush c   => execPpush c s
  | .peval x   => execPevalFor F x s
  | .lclr      => execLclr s
  | .lpush x y => execLpush x y s
  | .linterp   => execLinterpFor F s
  | .sub a b   => execSub a b s

/-- One step, under the parameters `F`. -/
def stepFor (F : FieldParams) (s : State) : Result := portStepWith (execFor F) s.portIn s.sampled

/-- The machine as the host runs it, under the parameters `F`. -/
def coreFor (F : FieldParams) : Host.Core :=
  { State := State, Fault := Fault, Refusal := Refusal, step := stepFor F, reset := State.reset }

end Sys2Proof.Machine
end

