-- ==== Sys2Proof/Safety.lean ====
section
/-! DEFINITION. What counts as a safe step, the invariant of the block's states, and the terms the
claims use: legal parameters of the field, and the value of a polynomial written as a sum. -/

namespace Sys2Proof.Machine

/-- A safe step answers a next state: it neither faults nor is refused. -/
def stepsSafely (s : State) : Prop := ∃ t, step s = .next t

/-- A response the block may give (R55, R131): a status of R131 and a value, the value 0x00 unless
the status is `OK`. -/
def legalResponse (r : RspWord) : Prop :=
  ∃ st v, r = rspWord st v ∧ (st ≠ .ok → v = 0#8)

/-- The invariant of the block's states: each buffer holds at most 255 entries (R19, R21), a busy
block presents no response (R50, R51), and a response presented is one the block may give. -/
structure State.Inv (s : State) : Prop where
  pcap  : s.pcnt ≤ Config.pcap
  lcap  : s.lcnt ≤ Config.lcap
  busy  : s.inProgress.isSome → s.rsp = none
  legal : ∀ r, s.rsp = some r → legalResponse r

/-- Legal parameters: `POLY` has degree 8, and `GEN` is a generator of the 255 nonzero bytes under
it (spec/92_eei_decisions.md, open parameters). That every nonzero byte is a power of `GEN` makes
every one invertible, so `POLY` is then irreducible. -/
structure LegalParams (F : FieldParams) : Prop where
  degree   : F.poly.getLsbD 8 = true
  nonzero  : ∀ i < 255, powGen F i ≠ 0#8
  distinct : ∀ i < 255, ∀ j < 255, powGen F i = powGen F j → i = j
  order    : powGen F 255 = 0x01#8

/-- `x^n`, with `x^0 = 0x01` for every `x` (R91), by the reference multiplication. -/
def powRef (poly : BitVec 9) (x : Byte) : Nat → Byte
  | 0     => 0x01#8
  | n + 1 => mulRef poly (powRef poly x n) x

/-- The field sum of `c[i] * x^(n+i)` over the list `c` (R91). -/
def polySumFrom (poly : BitVec 9) (x : Byte) : Nat → List Byte → Byte
  | _, []      => 0#8
  | n, c :: cs => mulRef poly c (powRef poly x n) ^^^ polySumFrom poly x (n + 1) cs

/-- The value at `x` of the polynomial with the coefficients `c`, index 0 the constant term, as the
field sum of R91, by the reference multiplication. -/
def polySum (poly : BitVec 9) (c : List Byte) (x : Byte) : Byte := polySumFrom poly x 0 c

/-- Every point lies on the polynomial with the coefficients `c`. -/
def liesOn (poly : BitVec 9) (c : List Byte) (pts : List Point) : Prop :=
  ∀ p ∈ pts, polySum poly c p.x = p.y

/-- The x-coordinates of the points are pairwise distinct (R104). -/
def distinctX (pts : List Point) : Prop := (pts.map Point.x).Nodup

end Sys2Proof.Machine
end

