-- ==== Sys2Proof/Certificates/Slice0/Obligations.lean ====
section
/-! DEFINITION. The statements about the model, for the provers. `OBLIGATIONS.json` lists them, each with
the rules of spec/ it formalises. -/

open Sys2Proof Sys2Proof.Machine

/-! ### Command words -/

/-- R57: the legal command words correspond one to one to the ten commands with their operands:
decoding the word of a command gives the command, and encoding what a word decodes to gives the
word, so a must-be-zero field that is not zero makes a word illegal. -/
def Obligations.LegalWordsCorrespondToCommands : Prop :=
  (∀ i : Instr, i.wellFormed = true → decode (encode i) = .ok i) ∧
  (∀ (w : CmdWord) (i : Instr), decode w = .ok i → encode i = w ∧ i.wellFormed = true)

/-- R64: every word either selects exactly one row of the opcode map of R56, and decodes to the command
of that row with the operand values of the word, or selects no row and is illegal. -/
def Obligations.EveryWordSelectsOneRowOrIsIllegal : Prop :=
  ∀ w : CmdWord,
    (∃ r ∈ opcodeMap, selectsRow w r = true ∧
      (∀ r' ∈ opcodeMap, selectsRow w r' = true → r' = r) ∧
      ∃ i, decode w = .ok i ∧ i.mnemonic = r.mnemonic ∧ encode i = w) ∨
    ((∀ r ∈ opcodeMap, selectsRow w r = false) ∧ ∃ e, decode w = .error e)

/-- R58: which words are illegal, what an illegal word does, and how many words are legal and how many
are not. -/
def Obligations.IllegalWordsAreAnsweredAndChangeNothing : Prop :=
  (∀ w : CmdWord, (∃ e, decode w = .error e) ↔
    (cmdOp w = 0x0#4 ∨ 0xB#4 ≤ cmdOp w ∨
      ((cmdOp w = 0x4#4 ∨ cmdOp w = 0x6#4 ∨ cmdOp w = 0x7#4) ∧ cmdB w ≠ 0#8) ∨
      ((cmdOp w = 0x5#4 ∨ cmdOp w = 0x8#4 ∨ cmdOp w = 0xA#4) ∧
        (cmdA w ≠ 0#8 ∨ cmdB w ≠ 0#8)))) ∧
  (∀ (s : State) (e : IllegalWord), s.portIn.reset = false → s.portIn.cmdValid = true →
    s.inProgress = none → decode s.portIn.cmd = .error e →
    ∃ t, step s = .next t ∧ t.inProgress = some s.portIn.cmd) ∧
  (∀ (s : State) (w : CmdWord) (e : IllegalWord),
    s.portIn.reset = false → s.inProgress = some w → decode w = .error e →
    ∃ t, step s = .next t ∧ t.rsp = some 0x500#12 ∧ t.inProgress = none ∧
      t.pcoef = s.pcoef ∧ t.points = s.points ∧ t.inputs = s.inputs.tail) ∧
  (Finset.univ.filter fun w : CmdWord => (decode w).isOk = true).card = 262915 ∧
  (Finset.univ.filter fun w : CmdWord => (decode w).isOk = false).card = 785661

/-- R62: `SUB a, b` has the word of `ADD a, b`, which decodes to `ADD`. -/
def Obligations.SubHasTheWordOfAdd : Prop :=
  ∀ a b : Byte, encode (.sub a b) = encode (.add a b) ∧
    decode (encode (.sub a b)) = .ok (.add a b) ∧
    ∀ s, exec (.sub a b) s = exec (.add a b) s

/-- Words written out from the encodings of R56, one of each unit, decode to the commands they stand
for. -/
def Obligations.ListedWordsDecode : Prop :=
  decode 0x153CA#20 = .ok (.add 0x53#8 0xCA#8) ∧
  decode 0x253CA#20 = .ok (.mul 0x53#8 0xCA#8) ∧
  decode 0x3028E#20 = .ok (.div 0x02#8 0x8E#8) ∧
  decode 0x45300#20 = .ok (.inv 0x53#8) ∧
  decode 0x6AB00#20 = .ok (.ppush 0xAB#8) ∧
  decode 0x9022C#20 = .ok (.lpush 0x02#8 0x2C#8) ∧
  decode 0x40001#20 = .error (.mustBeZero 0x4#4)

/-! ### Steps, ports and reset -/

/-- A step of a busy block that is not being reset is the command its word in progress decodes to, on
the state in which this step's inputs have been sampled. -/
def Obligations.StepPerformsTheDecodedCommand : Prop :=
  ∀ (s : State) (w : CmdWord) (i : Instr),
    s.portIn.reset = false → s.inProgress = some w → decode w = .ok i →
    step s = exec i s.sampled

/-- A step of an idle block that is not being reset accepts the word offered: the word is in progress,
no response is presented, the buffers are unchanged. -/
def Obligations.IdleBlockAcceptsTheOfferedWord : Prop :=
  ∀ s : State, s.portIn.reset = false → s.portIn.cmdValid = true → s.inProgress = none →
    s.cmdReady = true ∧
    ∃ t, step s = .next t ∧ t.inProgress = some s.portIn.cmd ∧ t.rsp = none ∧
      t.pcoef = s.pcoef ∧ t.points = s.points ∧ t.inputs = s.inputs.tail

/-- An idle block that is offered nothing and is not being reset keeps its whole state. That this includes
a response presented, which stays presented, is the model's reading (notes/assumptions/7.md). -/
def Obligations.IdleBlockKeepsItsState : Prop :=
  ∀ s : State, s.portIn.reset = false → s.portIn.cmdValid = false → s.inProgress = none →
    step s = .next { s with inputs := s.inputs.tail }

/-- R53: an accepted command gets exactly one response unless reset intervenes. The word, legal or not,
is accepted in one step, in which no response is presented; in the next step the block, not ready
for another command whatever is offered, answers, and is idle. A step of an idle block presents no
new response. That no response is presented in the accepting step, that the answer comes in the very
next one, and that nothing is accepted in that one are the model's (notes/assumptions/7.md, 3.md,
15.md). -/
def Obligations.AcceptedCommandGetsOneResponse : Prop :=
  (∀ (s : State) (p q : PortIn) (rest : List PortIn),
    s.inProgress = none → s.inputs = p :: q :: rest →
    p.reset = false → p.cmdValid = true → q.reset = false →
    ∃ t u r, step s = .next t ∧ t.inProgress = some p.cmd ∧ t.rsp = none ∧ t.cmdReady = false ∧
      t.pcoef = s.pcoef ∧ t.points = s.points ∧
      step t = .next u ∧ u.inProgress = none ∧ u.rsp = some r ∧ u.inputs = rest) ∧
  (∀ s t : State, s.inProgress = none → step s = .next t → t.rsp = s.rsp ∨ t.rsp = none)

/-- R52: reset overrides everything, a busy block and a word offered too; no command is accepted, no
response is given, and the state is that after reset. That `cmd_ready` is false meanwhile and that an
earlier response is no longer presented are the model's readings (notes/assumptions/15.md, 7.md). -/
def Obligations.ResetOverridesEverything : Prop :=
  ∀ s : State, s.portIn.reset = true →
    s.cmdReady = false ∧
    ∃ t, step s = .next t ∧ t.pcnt = 0 ∧ t.lcnt = 0 ∧ t.inProgress = none ∧ t.rsp = none ∧
      t.inputs = s.inputs.tail

/-- The state after reset: both counters 0, no command in progress, the block ready (R25); that no
response is presented is the model's reading (notes/assumptions/7.md). -/
def Obligations.ResetStateIsEmptyAndIdle : Prop :=
  State.reset.pcnt = 0 ∧ State.reset.lcnt = 0 ∧ State.reset.inProgress = none ∧
    State.reset.rspValid = false ∧ State.reset.cmdReady = true

/-- From every state a step answers a next state: it neither hangs (R6) nor reads `LOG[0]` or `EXP` out of
range (R16, R31), each of which is a fault of the model. -/
def Obligations.EveryStepIsSafe : Prop := ∀ s : State, stepsSafely s

/-- Every step keeps the invariant: the counters stay at most 255, a busy block presents no response,
and a response presented is one of R131. -/
def Obligations.StepKeepsTheInvariant : Prop :=
  ∀ s t : State, s.Inv → step s = .next t → t.Inv

/-- The state after reset meets the invariant. -/
def Obligations.ResetMeetsTheInvariant : Prop := State.reset.Inv

/-- The response to a word and the buffers after it are functions of the buffers before it and the word
alone: nothing else, such as the outcome of an earlier command, has an effect (R5, R12, R142). -/
def Obligations.OutcomeDependsOnBuffersAndWordOnly : Prop :=
  ∀ (w : CmdWord) (s s' t : State), s'.pcoef = s.pcoef → s'.points = s.points →
    runCommand w s = .next t →
    ∃ t', runCommand w s' = .next t' ∧ t'.rsp = t.rsp ∧ t'.pcoef = t.pcoef ∧ t'.points = t.points

/-! ### Responses and conditions -/

/-- R55: the response word holds the status in bits 11:8 and the value in bits 7:0, and a failed
command's value is 0x00. -/
def Obligations.ResponseWordHoldsStatusAndValue : Prop :=
  (∀ (s : State) (st : Status) (v : Byte), ∃ r, (s.respond st v).rsp = some r ∧
    rspStatus r = statusCode st ∧ rspValue r = v ∧
    r.toNat = (statusCode st).toNat * 256 + v.toNat) ∧
  (∀ (s : State) (c : Status), s.raise c = s.respond c 0x00#8)

/-- R141: a command that ends in a condition changes no buffer and no counter, and its value is 0x00. -/
def Obligations.ConditionChangesNothing : Prop :=
  ∀ (w : CmdWord) (s t : State) (r : RspWord),
    runCommand w s = .next t → t.rsp = some r → rspStatus r ≠ 0x0#4 →
    t.pcoef = s.pcoef ∧ t.points = s.points ∧ t.inputs = s.inputs ∧ rspValue r = 0x00#8

/-- R131: which status each command ends in, in a state the block can be in, and that of an illegal
word. -/
def Obligations.StatusOfEachCommand : Prop :=
  (∀ (i : Instr) (s t : State) (r : RspWord), s.Inv → exec i s = .next t → t.rsp = some r →
    rspStatus r =
      match i with
      | .add _ _   => 0x0#4
      | .sub _ _   => 0x0#4
      | .mul _ _   => 0x0#4
      | .div _ b   => if b = 0x00#8 then 0x1#4 else 0x0#4
      | .inv a     => if a = 0x00#8 then 0x1#4 else 0x0#4
      | .pclr      => 0x0#4
      | .ppush _   => if s.pcnt = 255 then 0x2#4 else 0x0#4
      | .peval _   => if s.pcnt = 0 then 0x2#4 else 0x0#4
      | .lclr      => 0x0#4
      | .lpush _ _ => if s.lcnt = 255 then 0x2#4 else 0x0#4
      | .linterp   =>
        if s.lcnt < 2 then 0x4#4
        else if (s.points.map Point.x).Nodup then 0x0#4 else 0x3#4) ∧
  (∀ (w : CmdWord) (e : IllegalWord) (s t : State) (r : RspWord), decode w = .error e →
    runCommand w s = .next t → t.rsp = some r → rspStatus r = 0x5#4)

/-- R132, R85: `DIV` with divisor zero, whatever the dividend, and `INV` of zero are answered
`DivisionByZero`, status 0x1, and change nothing; no other command is ever answered so. -/
def Obligations.DivisionByZeroIsRaisedByDivAndInvOnly : Prop :=
  (∀ (a : Byte) (s : State),
    exec (.div a 0x00#8) s = .next { s with rsp := some 0x100#12, inProgress := none } ∧
    exec (.inv 0x00#8) s = .next { s with rsp := some 0x100#12, inProgress := none }) ∧
  (∀ (i : Instr) (s t : State) (r : RspWord), exec i s = .next t → t.rsp = some r →
    rspStatus r = 0x1#4 → (∃ a, i = .div a 0x00#8) ∨ i = .inv 0x00#8)

/-! ### Frames -/

/-- R26: the commands that write no buffer leave both buffers as they were, in every form. -/
def Obligations.ReadersLeaveTheBuffers : Prop :=
  ∀ (i : Instr) (s t : State),
    (match i with
      | .add _ _ | .sub _ _ | .mul _ _ | .div _ _ | .inv _ | .peval _ | .linterp => True
      | .pclr | .ppush _ | .lclr | .lpush _ _ => False) →
    exec i s = .next t →
    t.pcoef = s.pcoef ∧ t.points = s.points ∧ t.inputs = s.inputs ∧ t.inProgress = none

/-- R26: the `P` commands leave the points, the `L` commands the coefficients, and neither depends on
what the other's buffer holds. -/
def Obligations.BufferGroupsAreIndependent : Prop :=
  (∀ (i : Instr) (s t : State) (pts : List Point),
    (match i with
      | .pclr | .ppush _ | .peval _ => True
      | .add _ _ | .sub _ _ | .mul _ _ | .div _ _ | .inv _ | .lclr | .lpush _ _ | .linterp =>
        False) →
    exec i s = .next t →
    t.points = s.points ∧ exec i { s with points := pts } = .next { t with points := pts }) ∧
  (∀ (i : Instr) (s t : State) (cs : List Byte),
    (match i with
      | .lclr | .lpush _ _ | .linterp => True
      | .add _ _ | .sub _ _ | .mul _ _ | .div _ _ | .inv _ | .pclr | .ppush _ | .peval _ =>
        False) →
    exec i s = .next t →
    t.pcoef = s.pcoef ∧ exec i { s with pcoef := cs } = .next { t with pcoef := cs })

/-! ### The field -/

/-- R73: the laws of addition; R71: subtraction is addition. -/
def Obligations.AdditionLaws : Prop :=
  ∀ a b c : Byte, gfAdd a b = gfAdd b a ∧ gfAdd a 0x00#8 = a ∧ gfAdd a a = 0x00#8 ∧
    gfAdd a (gfAdd b c) = gfAdd (gfAdd a b) c ∧ gfAdd a b = a ^^^ b ∧ gfSub a b = gfAdd a b

/-- R14, R13: under legal parameters `LOG` of a nonzero byte is the one index from 0 to 254 at which
`EXP` holds it, `EXP[255]` is 0x01, and a read of `LOG[0x00]` is a fault of the model. -/
def Obligations.LogAndExpAreInverse : Prop :=
  ∀ F : FieldParams, LegalParams F →
    (∀ v : Byte, v ≠ 0x00#8 → ∃ i ≤ 254, readLog F v = .ok i ∧ readExp F i = .ok v ∧
      ∀ j ≤ 254, readExp F j = .ok v → j = i) ∧
    readLog F 0x01#8 = .ok 0 ∧ readLog F F.gen = .ok 1 ∧ readExp F 255 = .ok 0x01#8 ∧
    readLog F 0x00#8 = .error .undefinedLogEntry

/-- R78: under legal parameters the table multiplication is the product of polynomials over GF(2)
reduced modulo `POLY`. -/
def Obligations.TableProductIsPolynomialProduct : Prop :=
  ∀ F : FieldParams, LegalParams F → ∀ a b : Byte, gfMul F a b = .ok (mulRef F.poly a b)

/-- R77: the laws of multiplication, under legal parameters. -/
def Obligations.MultiplicationLaws : Prop :=
  ∀ F : FieldParams, LegalParams F → ∃ mul : Byte → Byte → Byte,
    (∀ a b, gfMul F a b = .ok (mul a b)) ∧
    (∀ a b c, mul a (mul b c) = mul (mul a b) c) ∧
    (∀ a, mul a 0x01#8 = a) ∧
    (∀ a b, mul a b = mul b a) ∧
    (∀ a b c, mul a (gfAdd b c) = gfAdd (mul a b) (mul a c)) ∧
    (∀ a, a ≠ 0x00#8 → ∃ v, gfInv F a = .ok v ∧ mul a v = 0x01#8)

/-- R84: division is multiplication by the inverse, and the inverse is division of 0x01. -/
def Obligations.DivisionIsProductWithInverse : Prop :=
  ∀ F : FieldParams, LegalParams F → ∀ a b : Byte, b ≠ 0x00#8 →
    ∃ q v, gfDiv F a b = .ok q ∧ gfInv F b = .ok v ∧ gfMul F a v = .ok q ∧
      gfDiv F 0x01#8 b = .ok v

/-- R17: results depend on `POLY` alone, whatever generator the tables are built from. -/
def Obligations.ResultsDoNotDependOnTheGenerator : Prop :=
  ∀ F F' : FieldParams, LegalParams F → LegalParams F' → F.poly = F'.poly → ∀ a b : Byte,
    gfMul F a b = gfMul F' a b ∧
    (b ≠ 0x00#8 → gfDiv F a b = gfDiv F' a b ∧ gfInv F b = gfInv F' b)

/-- R91: Horner's method gives the field sum of `c[i] * x^i`, and the consequences the rule draws. -/
def Obligations.HornerGivesThePowerSum : Prop :=
  ∀ F : FieldParams, LegalParams F → ∀ (c : Byte) (cs : List Byte) (x : Byte),
    polyEval F (c :: cs) x = .ok (polySum F.poly (c :: cs) x) ∧
    polyEval F (c :: cs) 0x00#8 = .ok c ∧
    polyEval F [c] x = .ok c ∧
    polyEval F (c :: cs) 0x01#8 = .ok ((c :: cs).foldl (fun u v => u ^^^ v) 0x00#8)

/-! ### The field commands -/

/-- R72, R71: `ADD` and `SUB` answer the exclusive-or of the operands and change nothing else. -/
def Obligations.AddAnswersExclusiveOr : Prop :=
  ∀ (a b : Byte) (s : State),
    (encode (.add a b)).toNat = 0x10000 + a.toNat * 256 + b.toNat ∧
    (∀ w : CmdWord, w &&& 0xF0000#20 = 0x10000#20 ↔ decode w = .ok (.add (cmdA w) (cmdB w))) ∧
    exec (.add a b) s = .next (s.respond .ok (a ^^^ b)) ∧
    exec (.sub a b) s = .next (s.respond .ok (a ^^^ b))

/-- R76: `MUL` answers `gf_mul` of its operands, 0x00 if either is 0x00, and changes nothing else. -/
def Obligations.MulAnswersTheTableProduct : Prop :=
  ∀ (a b : Byte) (s : State),
    (encode (.mul a b)).toNat = 0x20000 + a.toNat * 256 + b.toNat ∧
    (∀ w : CmdWord, w &&& 0xF0000#20 = 0x20000#20 ↔ decode w = .ok (.mul (cmdA w) (cmdB w))) ∧
    ∃ v, gfMul Config.field a b = .ok v ∧ exec (.mul a b) s = .next (s.respond .ok v) ∧
      (v = 0x00#8 ↔ a = 0x00#8 ∨ b = 0x00#8)

/-- `MUL` answers the product of polynomials over GF(2) reduced modulo 0x11D (R78, and R3 for the
value of `POLY`, which the spec supplies from general knowledge: notes/assumptions/1.md). -/
def Obligations.MulAnswersThePolynomialProduct : Prop :=
  ∀ (a b : Byte) (s : State), exec (.mul a b) s = .next (s.respond .ok (mulRef 0x11D#9 a b))

/-- R82: `DIV` by a nonzero divisor answers `gf_div` of its operands and changes nothing else; by zero
it raises `DivisionByZero`. -/
def Obligations.DivAnswersTheTableQuotient : Prop :=
  ∀ (a b : Byte) (s : State),
    (encode (.div a b)).toNat = 0x30000 + a.toNat * 256 + b.toNat ∧
    (∀ w : CmdWord, w &&& 0xF0000#20 = 0x30000#20 ↔ decode w = .ok (.div (cmdA w) (cmdB w))) ∧
    (b = 0x00#8 → exec (.div a b) s = .next (s.raise .divisionByZero)) ∧
    (b ≠ 0x00#8 → ∃ q, gfDiv Config.field a b = .ok q ∧
      exec (.div a b) s = .next (s.respond .ok q) ∧ (a = 0x00#8 → q = 0x00#8))

/-- R83: `INV` of a nonzero byte answers `gf_inv` of it and changes nothing else; of zero it raises
`DivisionByZero`. -/
def Obligations.InvAnswersTheTableInverse : Prop :=
  ∀ (a : Byte) (s : State),
    (encode (.inv a)).toNat = 0x40000 + a.toNat * 256 ∧
    (∀ w : CmdWord, w &&& 0xF00FF#20 = 0x40000#20 ↔ decode w = .ok (.inv (cmdA w))) ∧
    (a = 0x00#8 → exec (.inv a) s = .next (s.raise .divisionByZero)) ∧
    (a ≠ 0x00#8 → ∃ v, gfInv Config.field a = .ok v ∧ exec (.inv a) s = .next (s.respond .ok v))

/-- Division and inversion undo multiplication, as commands (R77, R84): what `DIV a, b` answers, times
`b`, is `a`; what `MUL a, b` answers, divided by `b`, is `a`; what `INV b` answers, times `b`, is
0x01. -/
def Obligations.DivAndInvUndoMul : Prop :=
  ∀ (a b : Byte) (s : State), b ≠ 0x00#8 → ∃ q p v,
    exec (.div a b) s = .next (s.respond .ok q) ∧ exec (.mul q b) s = .next (s.respond .ok a) ∧
    exec (.mul a b) s = .next (s.respond .ok p) ∧ exec (.div p b) s = .next (s.respond .ok a) ∧
    exec (.inv b) s = .next (s.respond .ok v) ∧ exec (.mul b v) s = .next (s.respond .ok 0x01#8)

/-! ### The polynomial evaluator -/

/-- R92: `PCLR` sets `PCNT` to 0, answers 0x00, and changes nothing else. -/
def Obligations.PclrEmptiesTheCoefficients : Prop :=
  ∀ s : State, encode .pclr = 0x50000#20 ∧
    (∀ w : CmdWord, w &&& 0xFFFFF#20 = 0x50000#20 ↔ decode w = .ok .pclr) ∧
    ∃ t, exec .pclr s = .next t ∧ t.pcnt = 0 ∧ t.rsp = some 0x000#12 ∧
      t.points = s.points ∧ t.inProgress = none ∧ t.inputs = s.inputs

/-- R93: `PPUSH` writes the coefficient at index `PCNT`, adds one to `PCNT`, answers the new count, and
changes nothing else; on a full buffer it raises `InvalidParameters`. -/
def Obligations.PpushAppendsTheCoefficient : Prop :=
  ∀ (c : Byte) (s : State), s.Inv →
    (encode (.ppush c)).toNat = 0x60000 + c.toNat * 256 ∧
    (∀ w : CmdWord, w &&& 0xF00FF#20 = 0x60000#20 ↔ decode w = .ok (.ppush (cmdA w))) ∧
    (s.pcnt ≠ 255 → ∃ t, exec (.ppush c) s = .next t ∧ t.pcnt = s.pcnt + 1 ∧
      t.pcoef[s.pcnt]? = some c ∧ (∀ j < s.pcnt, t.pcoef[j]? = s.pcoef[j]?) ∧
      t.rsp = some (rspWord .ok (BitVec.ofNat 8 (s.pcnt + 1))) ∧
      t.points = s.points ∧ t.inProgress = none ∧ t.inputs = s.inputs) ∧
    (s.pcnt = 255 → exec (.ppush c) s = .next (s.raise .invalidParameters))

/-- R94: `PEVAL` answers the value of the polynomial held, by R90, and changes nothing else; on an empty
buffer it raises `InvalidParameters`. -/
def Obligations.PevalAnswersTheValue : Prop :=
  ∀ (x : Byte) (s : State),
    (encode (.peval x)).toNat = 0x70000 + x.toNat * 256 ∧
    (∀ w : CmdWord, w &&& 0xF00FF#20 = 0x70000#20 ↔ decode w = .ok (.peval (cmdA w))) ∧
    (s.pcnt ≠ 0 → ∃ v, polyEval Config.field s.pcoef x = .ok v ∧
      exec (.peval x) s = .next (s.respond .ok v)) ∧
    (s.pcnt = 0 → exec (.peval x) s = .next (s.raise .invalidParameters))

/-- R96: `PEVAL 0x00` is not rejected: it answers the constant term. -/
def Obligations.PevalAtZeroAnswersTheConstantTerm : Prop :=
  ∀ (s : State) (c : Byte), s.pcoef[0]? = some c →
    exec (.peval 0x00#8) s = .next (s.respond .ok c)

/-- R42: coefficients pushed after a `PCLR` are held in push order, each push answered with the count;
the block is left idle. -/
def Obligations.PushedCoefficientsAreHeldInOrder : Prop :=
  ∀ (s : State) (cs : List Byte), s.inProgress = none → cs.length ≤ 255 →
    ∃ t, issueAll (.pclr :: cs.map .ppush) s =
        .ok ((List.range (cs.length + 1)).map (BitVec.ofNat 8), t) ∧
      t.pcoef = cs ∧ t.points = s.points ∧ t.inProgress = none

/-! ### The Lagrange interpolator core -/

/-- R101: `LCLR` sets `LCNT` to 0, answers 0x00, and changes nothing else. -/
def Obligations.LclrEmptiesThePoints : Prop :=
  ∀ s : State, encode .lclr = 0x80000#20 ∧
    (∀ w : CmdWord, w &&& 0xFFFFF#20 = 0x80000#20 ↔ decode w = .ok .lclr) ∧
    ∃ t, exec .lclr s = .next t ∧ t.lcnt = 0 ∧ t.rsp = some 0x000#12 ∧
      t.pcoef = s.pcoef ∧ t.inProgress = none ∧ t.inputs = s.inputs

/-- R102: `LPUSH` writes the point at index `LCNT`, adds one to `LCNT`, answers the new count, and
changes nothing else, whatever the coordinates; on a full buffer it raises `InvalidParameters`. -/
def Obligations.LpushAppendsThePoint : Prop :=
  ∀ (x y : Byte) (s : State), s.Inv →
    (encode (.lpush x y)).toNat = 0x90000 + x.toNat * 256 + y.toNat ∧
    (∀ w : CmdWord, w &&& 0xF0000#20 = 0x90000#20 ↔ decode w = .ok (.lpush (cmdA w) (cmdB w))) ∧
    (s.lcnt ≠ 255 → ∃ t, exec (.lpush x y) s = .next t ∧ t.lcnt = s.lcnt + 1 ∧
      t.points[s.lcnt]? = some ⟨x, y⟩ ∧ (∀ j < s.lcnt, t.points[j]? = s.points[j]?) ∧
      t.rsp = some (rspWord .ok (BitVec.ofNat 8 (s.lcnt + 1))) ∧
      t.pcoef = s.pcoef ∧ t.inProgress = none ∧ t.inputs = s.inputs) ∧
    (s.lcnt = 255 → exec (.lpush x y) s = .next (s.raise .invalidParameters))

/-- R103: `LINTERP` on fewer than two points raises `InconsistentShares`; on points of which two have
the same x-coordinate, `DuplicateShare`; otherwise it answers the value of R100 and changes nothing
else. -/
def Obligations.LinterpAnswersTheInterpolatedValue : Prop :=
  ∀ s : State, encode .linterp = 0xA0000#20 ∧
    (∀ w : CmdWord, w &&& 0xFFFFF#20 = 0xA0000#20 ↔ decode w = .ok .linterp) ∧
    (s.lcnt < 2 → exec .linterp s = .next (s.raise .inconsistentShares)) ∧
    ((∃ (j k : Nat) (p q : Point), j < k ∧ s.points[j]? = some p ∧ s.points[k]? = some q ∧
        p.x = q.x) →
      exec .linterp s = .next (s.raise .duplicateShare)) ∧
    (2 ≤ s.lcnt →
      (∀ (j k : Nat) (p q : Point), j < k → s.points[j]? = some p → s.points[k]? = some q →
        p.x ≠ q.x) →
      ∃ v, lagrange0 Config.field s.points = .ok v ∧
        exec .linterp s = .next (s.respond .ok v))

/-- R100: through any points with distinct x-coordinates passes exactly one polynomial with as many
coefficients, and `lagrange0` gives its value at 0, the constant term. -/
def Obligations.LagrangeGivesTheUniquePolynomialAtZero : Prop :=
  ∀ pts : List Point, 2 ≤ pts.length → distinctX pts →
    ∃ c : List Byte, c.length = pts.length ∧ liesOn 0x11D#9 c pts ∧
      (∀ c' : List Byte, c'.length = pts.length → liesOn 0x11D#9 c' pts → c' = c) ∧
      lagrange0 Config.field pts = .ok (c.headD 0x00#8) ∧
      polySum 0x11D#9 c 0x00#8 = c.headD 0x00#8

/-- R105: when the points held lie on a polynomial with at most as many coefficients as there are
points, `LINTERP` answers its constant term, and leaves the points as they are. -/
def Obligations.LinterpRecoversTheConstantTerm : Prop :=
  ∀ (s : State) (c : Byte) (cs : List Byte), 2 ≤ s.lcnt → distinctX s.points →
    (c :: cs).length ≤ s.lcnt → liesOn 0x11D#9 (c :: cs) s.points →
    exec .linterp s = .next (s.respond .ok c)

/-- R105: the result does not depend on the order in which the points were pushed. -/
def Obligations.LinterpIgnoresTheOrderOfPoints : Prop :=
  ∀ (s t : State) (pts : List Point), pts.Perm s.points → exec .linterp s = .next t →
    exec .linterp { s with points := pts } = .next { t with points := pts }

/-- R106: a point with x-coordinate 0x00, the only one with it, makes the result that point's y. -/
def Obligations.PointAtZeroDecidesTheResult : Prop :=
  ∀ (s : State) (y : Byte), 2 ≤ s.lcnt → distinctX s.points → ⟨0x00#8, y⟩ ∈ s.points →
    exec .linterp s = .next (s.respond .ok y)

/-! ### The host's procedures -/

/-- R121, R122: a share is encoded as its x-coordinate byte and then its y-sequence; decoding is the
inverse, and fails on empty input. -/
def Obligations.ShareEncodingRoundTrip : Prop :=
  (∀ sh : Share, encodeShare sh = sh.x :: sh.y ∧ decodeShare (encodeShare sh) = .ok sh) ∧
  (∀ (bs : List Byte) (sh : Share), decodeShare bs = .ok sh →
    encodeShare sh = bs ∧ sh.y.length = bs.length - 1) ∧
  decodeShare [] = .error .malformedShare

/-- R110: `generate` outside the bounds, or with an empty secret, fails with `InvalidParameters`, on
whatever block. -/
def Obligations.GenerateChecksItsParameters : Prop :=
  ∀ (secret : List Byte) (k n : Nat) (r : Nat → Nat → Byte) (s : State),
    (secret = [] ∨ k < 1 ∨ n < k ∨ 255 < n) →
    generate secret k n r s = .error (.condition .invalidParameters)

/-- R116, R117: `recover` fails with `InconsistentShares` on fewer than two shares or on y-sequences of
different lengths, and with `DuplicateShare` on shares with the same x-coordinate, whatever their
y-sequences, empty ones too, and however many the shares are. That unequal lengths are found before a
repeated x-coordinate is the model's choice (notes/assumptions/13.md). -/
def Obligations.RecoverRejectsMalformedShares : Prop :=
  ∀ (shares : List Share) (s : State),
    (shares.length < 2 → recover shares s = .error (.condition .inconsistentShares)) ∧
    (2 ≤ shares.length → (∃ p ∈ shares, ∃ q ∈ shares, p.y.length ≠ q.y.length) →
      recover shares s = .error (.condition .inconsistentShares)) ∧
    ((∃ l, ∀ p ∈ shares, p.y.length = l) → ¬ (shares.map Share.x).Nodup →
      recover shares s = .error (.condition .duplicateShare))

/-- R125: any `k` or more of the shares of a secret, in any order and at least two, give the secret
back, whatever the random coefficients and whatever the two blocks held before; the shares have
distinct nonzero x-coordinates and one y-byte per byte of the secret (R111, R114). -/
def Obligations.SharesRecoverTheSecret : Prop :=
  ∀ (secret : List Byte) (k n : Nat) (r : Nat → Nat → Byte) (s s' : State),
    secret ≠ [] → 1 ≤ k → k ≤ n → n ≤ 255 → s.inProgress = none → s'.inProgress = none →
    ∃ shares t, generate secret k n r s = .ok (shares, t) ∧ shares.length = n ∧
      (shares.map Share.x).Nodup ∧
      (∀ sh ∈ shares, sh.x ≠ 0x00#8 ∧ sh.y.length = secret.length) ∧
      ∀ chosen : List Share, chosen.Subperm shares → k ≤ chosen.length → 2 ≤ chosen.length →
        ∃ t', recover chosen s' = .ok (secret, t')

/-! ### The parameters of the field as an argument -/

/-- R3: the machine takes `POLY` and `GEN` as an argument, and `exec`, `step` and `core` are it at
`POLY = 0x11D`, `GEN = 0x02` (notes/assumptions/1.md, 2.md). -/
def Obligations.DefaultMachineIsTheParametricOne : Prop :=
  Config.field = { poly := 0x11D#9, gen := 0x02#8 } ∧
  (∀ (i : Instr) (s : State), exec i s = execFor { poly := 0x11D#9, gen := 0x02#8 } i s) ∧
  (∀ s : State, step s = stepFor { poly := 0x11D#9, gen := 0x02#8 } s) ∧
  core = coreFor { poly := 0x11D#9, gen := 0x02#8 }

/-- R6, R16, R31, for every legal choice of the parameters: from every state a step answers a next
state. -/
def Obligations.StepIsSafeUnderAllParameters : Prop :=
  ∀ F : FieldParams, LegalParams F → ∀ s : State, ∃ t, stepFor F s = .next t

/-- For every legal choice of the parameters, what the commands that use them answer, in terms of `POLY`
alone (R3, R78, R84, R91, R105). -/
def Obligations.FieldCommandsUnderAllParameters : Prop :=
  ∀ F : FieldParams, LegalParams F → ∀ s : State,
    (∀ a b, execFor F (.mul a b) s = .next (s.respond .ok (mulRef F.poly a b))) ∧
    (∀ a b, b ≠ 0x00#8 → ∃ q, mulRef F.poly q b = a ∧
      execFor F (.div a b) s = .next (s.respond .ok q)) ∧
    (∀ a, a ≠ 0x00#8 → ∃ v, mulRef F.poly a v = 0x01#8 ∧
      execFor F (.inv a) s = .next (s.respond .ok v)) ∧
    (∀ x, s.pcnt ≠ 0 →
      execFor F (.peval x) s = .next (s.respond .ok (polySum F.poly s.pcoef x))) ∧
    (∀ c cs, 2 ≤ s.lcnt → distinctX s.points → (c :: cs).length ≤ s.lcnt →
      liesOn F.poly (c :: cs) s.points → execFor F .linterp s = .next (s.respond .ok c))

/-- R17: no command and no step depends on `GEN`. -/
def Obligations.CommandsDoNotDependOnTheGenerator : Prop :=
  ∀ F F' : FieldParams, LegalParams F → LegalParams F' → F.poly = F'.poly →
    (∀ (i : Instr) (s : State), execFor F i s = execFor F' i s) ∧
    (∀ s : State, stepFor F s = stepFor F' s)

/-- What does not depend on the parameters at all: the status of every command, the buffers it leaves,
and the whole outcome of the commands that do no field multiplication or division, `ADD` among them
(R73; spec/95_test_vectors.md, opening paragraph). -/
def Obligations.StatusesDoNotDependOnTheParameters : Prop :=
  ∀ F F' : FieldParams, LegalParams F → LegalParams F' → ∀ (i : Instr) (s : State),
    (∃ t t' r r', execFor F i s = .next t ∧ execFor F' i s = .next t' ∧
      t.rsp = some r ∧ t'.rsp = some r' ∧ rspStatus r = rspStatus r' ∧
      (rspStatus r ≠ 0x0#4 → t = t') ∧ t.pcoef = t'.pcoef ∧ t.points = t'.points) ∧
    (match i with
      | .mul _ _ | .div _ _ | .inv _ | .peval _ | .linterp => True
      | .add _ _ | .sub _ _ | .pclr | .ppush _ | .lclr | .lpush _ _ =>
        execFor F i s = execFor F' i s)
end

