-- ==== Sys2Proof/Laws/Decode.lean ====
section
/-! SUPPORT. The fields of a command word: each field of a word made from three is that field, and a
word is made of its three fields. -/

namespace Sys2Proof

@[simp] theorem cmdOp_mkCmd (op : BitVec 4) (a b : Byte) : cmdOp (mkCmd op a b) = op := by
  simp only [cmdOp, mkCmd]
  ext i hi
  simp only [BitVec.getElem_extractLsb', BitVec.getLsbD_append]
  rw [if_neg (by omega), if_neg (by omega)]
  simp [BitVec.getLsbD_eq_getElem, hi, show 16 + i - 8 - 8 = i by omega]

@[simp] theorem cmdA_mkCmd (op : BitVec 4) (a b : Byte) : cmdA (mkCmd op a b) = a := by
  simp only [cmdA, mkCmd]
  ext i hi
  simp only [BitVec.getElem_extractLsb', BitVec.getLsbD_append]
  rw [if_neg (by omega), if_pos (by omega)]
  simp [hi]

@[simp] theorem cmdB_mkCmd (op : BitVec 4) (a b : Byte) : cmdB (mkCmd op a b) = b := by
  simp only [cmdB, mkCmd]
  ext i hi
  simp only [BitVec.getElem_extractLsb', BitVec.getLsbD_append]
  rw [if_pos (by omega)]
  simp [hi]

/-- A command word is made of its fields (R54). -/
theorem mkCmd_fields (w : CmdWord) : mkCmd (cmdOp w) (cmdA w) (cmdB w) = w := by
  simp only [mkCmd, cmdOp, cmdA, cmdB]
  ext i hi
  simp only [BitVec.getElem_append, BitVec.getElem_extractLsb']
  split
  · simp [BitVec.getLsbD_eq_getElem, hi]
  · split
    · simp [show 8 + (i - 8) = i by omega, BitVec.getLsbD_eq_getElem, hi]
    · simp [show 16 + (i - 8 - 8) = i by omega, BitVec.getLsbD_eq_getElem, hi]

/-- Two command words are equal exactly when their fields are. -/
theorem cmdWord_ext_iff {w w' : CmdWord} :
    w = w' ↔ cmdOp w = cmdOp w' ∧ cmdA w = cmdA w' ∧ cmdB w = cmdB w' :=
  ⟨fun h => h ▸ ⟨rfl, rfl, rfl⟩, fun ⟨ho, ha, hb⟩ => by
    rw [← mkCmd_fields w, ← mkCmd_fields w', ho, ha, hb]⟩

/-- Which words a mask and a match of R56 select, field by field. -/
theorem and_mask_iff (w m b : CmdWord) :
    w &&& m = b ↔ cmdOp w &&& cmdOp m = cmdOp b ∧ cmdA w &&& cmdA m = cmdA b ∧
      cmdB w &&& cmdB m = cmdB b := by
  rw [cmdWord_ext_iff]
  simp only [cmdOp, cmdA, cmdB, BitVec.extractLsb'_and]

/-- A row with `a` and `b` free (`ADD`, `MUL`, `DIV`, `LPUSH`). -/
theorem and_mask_two (w : CmdWord) (op : BitVec 4) :
    w &&& 0xF0000#20 = mkCmd op 0#8 0#8 ↔ cmdOp w = op := by
  rw [and_mask_iff, show cmdOp 0xF0000#20 = BitVec.allOnes 4 from rfl,
    show cmdA 0xF0000#20 = 0#8 from rfl, show cmdB 0xF0000#20 = 0#8 from rfl, BitVec.and_allOnes]
  simp

/-- A row with `a` free and `b` zero (`INV`, `PPUSH`, `PEVAL`). -/
theorem and_mask_one (w : CmdWord) (op : BitVec 4) :
    w &&& 0xF00FF#20 = mkCmd op 0#8 0#8 ↔ cmdOp w = op ∧ cmdB w = 0#8 := by
  rw [and_mask_iff, show cmdOp 0xF00FF#20 = BitVec.allOnes 4 from rfl,
    show cmdA 0xF00FF#20 = 0#8 from rfl, show cmdB 0xF00FF#20 = BitVec.allOnes 8 from rfl,
    BitVec.and_allOnes, BitVec.and_allOnes]
  simp

/-- A row with `a` and `b` zero (`PCLR`, `LCLR`, `LINTERP`). -/
theorem and_mask_none (w : CmdWord) (op : BitVec 4) :
    w &&& 0xFFFFF#20 = mkCmd op 0#8 0#8 ↔ cmdOp w = op ∧ cmdA w = 0#8 ∧ cmdB w = 0#8 := by
  rw [and_mask_iff, show cmdOp 0xFFFFF#20 = BitVec.allOnes 4 from rfl,
    show cmdA 0xFFFFF#20 = BitVec.allOnes 8 from rfl,
    show cmdB 0xFFFFF#20 = BitVec.allOnes 8 from rfl, BitVec.and_allOnes, BitVec.and_allOnes,
    BitVec.and_allOnes]
  simp

/-- A command word as a number (R54). -/
theorem mkCmd_toNat (op : BitVec 4) (a b : Byte) :
    (mkCmd op a b).toNat = op.toNat * 65536 + a.toNat * 256 + b.toNat := by
  have ha : a.toNat < 2 ^ 8 := a.isLt
  have hb : b.toNat < 2 ^ 8 := b.isLt
  rw [mkCmd, BitVec.toNat_append, BitVec.toNat_append, ← Nat.shiftLeft_add_eq_or_of_lt hb,
    ← Nat.shiftLeft_add_eq_or_of_lt ha, Nat.shiftLeft_eq, Nat.shiftLeft_eq]
  omega

/-- A pseudo-command has the word of the command it expands to. -/
theorem encode_expand (i : Instr) : encode i.expand = encode i := by
  cases i <;> rfl

theorem wellFormed_expand (i : Instr) : i.expand.wellFormed = true := by
  cases i <;> rfl

/-- A command is well formed exactly when expanding it changes nothing. -/
theorem wellFormed_iff_expand_eq (i : Instr) : i.wellFormed = true ↔ i.expand = i := by
  cases i <;> simp [Instr.wellFormed, Instr.expand]

end Sys2Proof
end

