-- ==== Sys2Proof/Laws/Field.lean ====
section
/-! SUPPORT. The tables and the field functions: linearity of the shift-and-reduce step, what a read of
`EXP` and of `LOG` gives under legal parameters, and each field function as a power of `GEN`. -/

namespace Sys2Proof.Machine

/-! ### The reference product is linear in its first argument -/

theorem xtime_zero (poly : BitVec 9) : xtime poly 0#8 = 0#8 := by
  simp [xtime]

theorem xtime_xor (poly : BitVec 9) (u v : Byte) :
    xtime poly (u ^^^ v) = xtime poly u ^^^ xtime poly v := by
  have key : (u ^^^ v) ++ 0#1 = (u ++ 0#1 : BitVec 9) ^^^ (v ++ 0#1) := by
    ext i hi
    simp only [BitVec.getElem_append, BitVec.getElem_xor]
    split <;> simp
  simp only [xtime, key, BitVec.getLsbD_xor]
  cases (u ++ 0#1 : BitVec 9).getLsbD 8 <;> cases (v ++ 0#1 : BitVec 9).getLsbD 8 <;>
    (ext i hi; simp [Bool.xor_comm, Bool.xor_left_comm])

theorem mulRefLoop_xor (poly : BitVec 9) (b : Byte) (k : Nat) (r r' a a' : Byte) :
    mulRefLoop poly b k (r ^^^ r') (a ^^^ a') =
      mulRefLoop poly b k r a ^^^ mulRefLoop poly b k r' a' := by
  induction k generalizing r r' a a' with
  | zero => rfl
  | succ k ih =>
    simp only [mulRefLoop, xtime_xor]
    split
    · rw [← ih]
      congr 1
      ac_rfl
    · exact ih ..

theorem mulRef_xor_left (poly : BitVec 9) (a a' b : Byte) :
    mulRef poly (a ^^^ a') b = mulRef poly a b ^^^ mulRef poly a' b := by
  simpa [mulRef] using mulRefLoop_xor poly b 8 0#8 0#8 a a'

theorem timesGen_xor (F : FieldParams) (u v : Byte) :
    timesGen F (u ^^^ v) = timesGen F u ^^^ timesGen F v := by
  unfold timesGen
  split
  · exact xtime_xor ..
  · exact mulRef_xor_left ..

theorem timesGen_zero (F : FieldParams) : timesGen F 0#8 = 0#8 := by
  have h := timesGen_xor F 0#8 0#8
  simp only [BitVec.xor_self] at h
  exact h

/-! ### Multiplication by `GEN`, iterated -/

theorem iterate_timesGen_xor (F : FieldParams) (n : Nat) (u v : Byte) :
    (timesGen F)^[n] (u ^^^ v) = (timesGen F)^[n] u ^^^ (timesGen F)^[n] v := by
  induction n generalizing u v with
  | zero => rfl
  | succ n ih => simp only [Function.iterate_succ, Function.comp_apply, timesGen_xor, ih]

theorem powGen_eq_iterate (F : FieldParams) (n : Nat) :
    powGen F n = (timesGen F)^[n] 0x01#8 := by
  induction n with
  | zero => rfl
  | succ n ih => rw [Function.iterate_succ_apply', powGen, ih]

theorem iterate_timesGen_powGen (F : FieldParams) (n m : Nat) :
    (timesGen F)^[n] (powGen F m) = powGen F (n + m) := by
  rw [powGen_eq_iterate, powGen_eq_iterate, Function.iterate_add_apply]

theorem LegalParams.powGen_mod {F : FieldParams} (h : LegalParams F) (n : Nat) :
    powGen F (n % 255) = powGen F n := by
  have step : ∀ m, powGen F (m + 255) = powGen F m := fun m => by
    rw [← iterate_timesGen_powGen, h.order, ← powGen_eq_iterate]
  have mul : ∀ q m, powGen F (m + 255 * q) = powGen F m := fun q m => by
    induction q with
    | zero => rfl
    | succ q ih => rw [Nat.mul_succ, ← Nat.add_assoc, step, ih]
  rw [← mul (n / 255) (n % 255), Nat.mod_add_div]

theorem LegalParams.powGen_ne_zero {F : FieldParams} (h : LegalParams F) (n : Nat) :
    powGen F n ≠ 0#8 := by
  rw [← h.powGen_mod]
  exact h.nonzero _ (Nat.mod_lt _ (by decide))

/-- Two powers of `GEN` are equal exactly when their exponents agree modulo 255. -/
theorem LegalParams.powGen_inj {F : FieldParams} (h : LegalParams F) {n m : Nat} :
    powGen F n = powGen F m ↔ n % 255 = m % 255 := by
  rw [← h.powGen_mod n, ← h.powGen_mod m]
  exact ⟨h.distinct _ (Nat.mod_lt _ (by decide)) _ (Nat.mod_lt _ (by decide)),
    fun e => by rw [e]⟩

/-- Every nonzero byte is a power of `GEN`. -/
theorem LegalParams.exists_powGen {F : FieldParams} (h : LegalParams F) {v : Byte} (hv : v ≠ 0#8) :
    ∃ i < 255, powGen F i = v := by
  let f : Fin 255 → {b : Byte // b ≠ 0#8} := fun i => ⟨powGen F i, h.nonzero i i.2⟩
  have inj : Function.Injective f := fun i j e =>
    Fin.ext (h.distinct i i.2 j j.2 (congrArg Subtype.val e))
  have card : Fintype.card (Fin 255) = Fintype.card {b : Byte // b ≠ 0#8} := by
    have all : Fintype.card Byte = 256 := by
      rw [Fintype.card_congr ⟨BitVec.toFin, BitVec.ofFin, fun _ => rfl, fun _ => rfl⟩]
      simp
    rw [Fintype.card_subtype_compl, Fintype.card_subtype_eq, all, Fintype.card_fin]
  obtain ⟨i, hi⟩ := ((Fintype.bijective_iff_injective_and_card f).2 ⟨inj, card⟩).2 ⟨v, hv⟩
  exact ⟨i, i.2, congrArg Subtype.val hi⟩

/-! ### Reads of the tables -/

theorem readExp_of_le (F : FieldParams) {i : Nat} (h : i ≤ 255) :
    readExp F i = .ok (powGen F i) := by
  simp [readExp, h]

theorem logSearch_zero (F : FieldParams) (v : Byte) (i : Nat) (cur : Byte) :
    logSearch F v 0 i cur = none := rfl

theorem logSearch_succ (F : FieldParams) (v : Byte) (k i : Nat) (cur : Byte) :
    logSearch F v (k + 1) i cur =
      if cur = v then some i else logSearch F v k (i + 1) (timesGen F cur) := rfl

/-- The search finds the exponent `i + d` when the `d` powers before it differ from it. -/
theorem logSearch_eq_some (F : FieldParams) (i d k : Nat) (hk : d < k)
    (hne : ∀ e < d, powGen F (i + e) ≠ powGen F (i + d)) :
    logSearch F (powGen F (i + d)) k i (powGen F i) = some (i + d) := by
  induction d generalizing i k with
  | zero =>
    obtain ⟨k, rfl⟩ := Nat.exists_eq_succ_of_ne_zero (Nat.ne_of_gt hk)
    rw [Nat.add_zero, logSearch_succ, if_pos rfl]
  | succ d ih =>
    obtain ⟨k, rfl⟩ := Nat.exists_eq_succ_of_ne_zero (Nat.ne_of_gt (Nat.lt_of_le_of_lt (Nat.zero_le _) hk))
    have shift : ∀ e, i + (e + 1) = (i + 1) + e := fun e => by omega
    rw [logSearch_succ, if_neg (show powGen F i ≠ _ from hne 0 (Nat.succ_pos d)), shift d]
    refine ih (i + 1) k (by omega) fun e he => ?_
    rw [← shift, ← shift]
    exact hne _ (by omega)

/-- `LOG[GEN^j] = j` for `j` from 0 to 254 (R14). -/
theorem LegalParams.readLog_powGen {F : FieldParams} (h : LegalParams F) {j : Nat} (hj : j < 255) :
    readLog F (powGen F j) = .ok j := by
  have found : logSearch F (powGen F j) Config.order 0 0x01#8 = some j := by
    have := logSearch_eq_some F 0 j Config.order hj fun e he heq => by
      simp only [Nat.zero_add] at heq
      exact absurd (h.distinct e (by omega) j hj heq) (by omega)
    rw [Nat.zero_add] at this
    exact this
  rw [readLog, if_neg (h.nonzero j hj), found]

/-- A read of `LOG` at a nonzero byte answers an index from 0 to 254 that `EXP` takes back to it. -/
theorem LegalParams.readLog_of_ne_zero {F : FieldParams} (h : LegalParams F) {v : Byte}
    (hv : v ≠ 0#8) : ∃ j < 255, readLog F v = .ok j ∧ powGen F j = v := by
  obtain ⟨j, hj, rfl⟩ := h.exists_powGen hv
  exact ⟨j, hj, h.readLog_powGen hj, rfl⟩

theorem readLog_zero (F : FieldParams) : readLog F 0#8 = .error .undefinedLogEntry := rfl

/-! ### The index arithmetic of R40 -/

theorem mulIndex_lt (la lb : Nat) : mulIndex la lb < 255 := Nat.mod_lt _ (by decide)

theorem divIndex_lt (la lb : Nat) : divIndex la lb < 255 := by
  have := Int.emod_nonneg ((la : Int) - lb) (show ((255 : Nat) : Int) ≠ 0 by decide)
  have := Int.emod_lt_of_pos ((la : Int) - lb) (show (0 : Int) < ((255 : Nat) : Int) by decide)
  simp only [divIndex, Config.order]
  omega

theorem divIndex_add_mod (la lb : Nat) : (divIndex la lb + lb) % 255 = la % 255 := by
  simp only [divIndex, Config.order]
  omega

/-! ### The field functions on powers of `GEN` -/

theorem gfMul_zero_left (F : FieldParams) (b : Byte) : gfMul F 0#8 b = .ok 0#8 := by
  simp [gfMul]

theorem gfMul_zero_right (F : FieldParams) (a : Byte) : gfMul F a 0#8 = .ok 0#8 := by
  simp [gfMul]

theorem LegalParams.gfMul_powGen {F : FieldParams} (h : LegalParams F) (n m : Nat) :
    gfMul F (powGen F n) (powGen F m) = .ok (powGen F (n + m)) := by
  have lt : ∀ k, k % 255 < 255 := fun k => Nat.mod_lt _ (by decide)
  rw [gfMul, if_neg (not_or.2 ⟨h.powGen_ne_zero n, h.powGen_ne_zero m⟩),
    ← h.powGen_mod n, ← h.powGen_mod m, h.readLog_powGen (lt n), h.readLog_powGen (lt m)]
  change readExp F (mulIndex (n % 255) (m % 255)) = _
  rw [readExp_of_le F (Nat.le_of_lt (mulIndex_lt _ _)), mulIndex, Config.order, h.powGen_mod]
  exact congrArg _ (h.powGen_inj.2 (by omega))

theorem LegalParams.gfInv_powGen {F : FieldParams} (h : LegalParams F) {n : Nat} (hn : n < 255) :
    gfInv F (powGen F n) = .ok (powGen F (255 - n)) := by
  rw [gfInv, h.readLog_powGen hn]
  exact readExp_of_le F (Nat.sub_le _ _)

theorem gfDiv_zero_left (F : FieldParams) (b : Byte) : gfDiv F 0#8 b = .ok 0#8 := by
  simp [gfDiv]

theorem LegalParams.gfDiv_powGen {F : FieldParams} (h : LegalParams F) {n m : Nat} (hn : n < 255)
    (hm : m < 255) : gfDiv F (powGen F n) (powGen F m) = .ok (powGen F (divIndex n m)) := by
  rw [gfDiv, if_neg (h.nonzero n hn), h.readLog_powGen hn, h.readLog_powGen hm]
  exact readExp_of_le F (Nat.le_of_lt (divIndex_lt _ _))

/-- A product by a nonzero first factor is that many multiplications by `GEN`. -/
theorem LegalParams.gfMul_powGen_left {F : FieldParams} (h : LegalParams F) (n : Nat) (b : Byte) :
    gfMul F (powGen F n) b = .ok ((timesGen F)^[n] b) := by
  by_cases hb : b = 0#8
  · subst hb
    rw [gfMul_zero_right, Function.iterate_fixed (timesGen_zero F)]
  · obtain ⟨m, -, rfl⟩ := h.exists_powGen hb
    rw [h.gfMul_powGen, iterate_timesGen_powGen]

/-! ### Under legal parameters no field function faults -/

theorem LegalParams.gfMul_isOk {F : FieldParams} (h : LegalParams F) (a b : Byte) :
    ∃ v, gfMul F a b = .ok v := by
  by_cases ha : a = 0#8
  · exact ⟨_, ha ▸ gfMul_zero_left F b⟩
  · obtain ⟨n, -, rfl⟩ := h.exists_powGen ha
    exact ⟨_, h.gfMul_powGen_left n b⟩

theorem LegalParams.gfInv_isOk {F : FieldParams} (h : LegalParams F) {a : Byte} (ha : a ≠ 0#8) :
    ∃ v, gfInv F a = .ok v := by
  obtain ⟨n, hn, rfl⟩ := h.exists_powGen ha
  exact ⟨_, h.gfInv_powGen hn⟩

theorem LegalParams.gfDiv_isOk {F : FieldParams} (h : LegalParams F) (a : Byte) {b : Byte}
    (hb : b ≠ 0#8) : ∃ v, gfDiv F a b = .ok v := by
  by_cases ha : a = 0#8
  · exact ⟨_, ha ▸ gfDiv_zero_left F b⟩
  · obtain ⟨n, hn, rfl⟩ := h.exists_powGen ha
    obtain ⟨m, hm, rfl⟩ := h.exists_powGen hb
    exact ⟨_, h.gfDiv_powGen hn hm⟩

/-! ### Legal parameters, by the order of `GEN` -/

/-- Parameters are legal when 255 is the least exponent above 0 at which the power of `GEN` is 0x01, and
no power is zero. -/
theorem legal_of_order {F : FieldParams} (degree : F.poly.getLsbD 8 = true)
    (nonzero : ∀ d < 255, powGen F d ≠ 0#8) (least : ∀ d < 255, d ≠ 0 → powGen F d ≠ 0x01#8)
    (order : powGen F 255 = 0x01#8) : LegalParams F := by
  have apart : ∀ i j, i < j → j < 255 → powGen F i ≠ powGen F j := by
    intro i j hij hj heq
    have shifted := congrArg (timesGen F)^[255 - i] heq
    rw [iterate_timesGen_powGen, iterate_timesGen_powGen, show 255 - i + i = 255 by omega, order,
      show 255 - i + j = (j - i) + 255 by omega, ← iterate_timesGen_powGen, order,
      ← powGen_eq_iterate] at shifted
    exact least (j - i) (by omega) (by omega) shifted.symm
  refine ⟨degree, nonzero, fun i hi j hj heq => ?_, order⟩
  rcases Nat.lt_trichotomy i j with h | h | h
  · exact absurd heq (apart i j h hj)
  · exact h
  · exact absurd heq.symm (apart j i h hi)

/-- The default parameters are legal: 0x02 has order 255 under 0x11D (spec/95_test_vectors.md
section 2). -/
theorem config_legal : LegalParams Config.field :=
  legal_of_order (by decide) (by decide +kernel) (by decide +kernel) (by decide +kernel)

end Sys2Proof.Machine
end

