-- ==== Sys2Proof/Laws/State.lean ====
section
/-! SUPPORT. What each update of the state does to each field, one lemma per field per update, and
the counters in their terms. -/

namespace Sys2Proof.Machine

variable (s : State) (st : Status) (v c x y : Byte) (w : CmdWord)

@[simp] theorem respond_pcoef : (s.respond st v).pcoef = s.pcoef := rfl
@[simp] theorem respond_points : (s.respond st v).points = s.points := rfl
@[simp] theorem respond_inProgress : (s.respond st v).inProgress = none := rfl
@[simp] theorem respond_rsp : (s.respond st v).rsp = some (rspWord st v) := rfl
@[simp] theorem respond_inputs : (s.respond st v).inputs = s.inputs := rfl

@[simp] theorem raise_pcoef : (s.raise st).pcoef = s.pcoef := rfl
@[simp] theorem raise_points : (s.raise st).points = s.points := rfl
@[simp] theorem raise_inProgress : (s.raise st).inProgress = none := rfl
@[simp] theorem raise_rsp : (s.raise st).rsp = some (rspWord st 0#8) := rfl
@[simp] theorem raise_inputs : (s.raise st).inputs = s.inputs := rfl

@[simp] theorem clearCoefficients_pcoef : s.clearCoefficients.pcoef = [] := rfl
@[simp] theorem clearCoefficients_points : s.clearCoefficients.points = s.points := rfl
@[simp] theorem clearCoefficients_inProgress : s.clearCoefficients.inProgress = s.inProgress := rfl
@[simp] theorem clearCoefficients_rsp : s.clearCoefficients.rsp = s.rsp := rfl
@[simp] theorem clearCoefficients_inputs : s.clearCoefficients.inputs = s.inputs := rfl

@[simp] theorem pushCoefficient_pcoef : (s.pushCoefficient c).pcoef = s.pcoef ++ [c] := rfl
@[simp] theorem pushCoefficient_points : (s.pushCoefficient c).points = s.points := rfl
@[simp] theorem pushCoefficient_inProgress : (s.pushCoefficient c).inProgress = s.inProgress := rfl
@[simp] theorem pushCoefficient_rsp : (s.pushCoefficient c).rsp = s.rsp := rfl
@[simp] theorem pushCoefficient_inputs : (s.pushCoefficient c).inputs = s.inputs := rfl

@[simp] theorem clearPoints_pcoef : s.clearPoints.pcoef = s.pcoef := rfl
@[simp] theorem clearPoints_points : s.clearPoints.points = [] := rfl
@[simp] theorem clearPoints_inProgress : s.clearPoints.inProgress = s.inProgress := rfl
@[simp] theorem clearPoints_rsp : s.clearPoints.rsp = s.rsp := rfl
@[simp] theorem clearPoints_inputs : s.clearPoints.inputs = s.inputs := rfl

@[simp] theorem pushPoint_pcoef : (s.pushPoint x y).pcoef = s.pcoef := rfl
@[simp] theorem pushPoint_points : (s.pushPoint x y).points = s.points ++ [⟨x, y⟩] := rfl
@[simp] theorem pushPoint_inProgress : (s.pushPoint x y).inProgress = s.inProgress := rfl
@[simp] theorem pushPoint_rsp : (s.pushPoint x y).rsp = s.rsp := rfl
@[simp] theorem pushPoint_inputs : (s.pushPoint x y).inputs = s.inputs := rfl

@[simp] theorem accept_pcoef : (s.accept w).pcoef = s.pcoef := rfl
@[simp] theorem accept_points : (s.accept w).points = s.points := rfl
@[simp] theorem accept_inProgress : (s.accept w).inProgress = some w := rfl
@[simp] theorem accept_rsp : (s.accept w).rsp = none := rfl
@[simp] theorem accept_inputs : (s.accept w).inputs = s.inputs := rfl

@[simp] theorem applyReset_pcoef : s.applyReset.pcoef = [] := rfl
@[simp] theorem applyReset_points : s.applyReset.points = [] := rfl
@[simp] theorem applyReset_inProgress : s.applyReset.inProgress = none := rfl
@[simp] theorem applyReset_rsp : s.applyReset.rsp = none := rfl
@[simp] theorem applyReset_inputs : s.applyReset.inputs = s.inputs := rfl

@[simp] theorem sampled_pcoef : s.sampled.pcoef = s.pcoef := rfl
@[simp] theorem sampled_points : s.sampled.points = s.points := rfl
@[simp] theorem sampled_inProgress : s.sampled.inProgress = s.inProgress := rfl
@[simp] theorem sampled_rsp : s.sampled.rsp = s.rsp := rfl
@[simp] theorem sampled_inputs : s.sampled.inputs = s.inputs.tail := rfl

@[simp] theorem withCommand_pcoef : (s.withCommand w).pcoef = s.pcoef := rfl
@[simp] theorem withCommand_points : (s.withCommand w).points = s.points := rfl
@[simp] theorem withCommand_inProgress : (s.withCommand w).inProgress = some w := rfl
@[simp] theorem withCommand_rsp : (s.withCommand w).rsp = s.rsp := rfl
@[simp] theorem withCommand_inputs : (s.withCommand w).inputs = PortIn.quiet :: s.inputs := rfl

theorem pcnt_eq : s.pcnt = s.pcoef.length := rfl
theorem lcnt_eq : s.lcnt = s.points.length := rfl

@[simp] theorem pushCoefficient_pcnt : (s.pushCoefficient c).pcnt = s.pcnt + 1 := by
  simp [pcnt_eq]
@[simp] theorem pushPoint_lcnt : (s.pushPoint x y).lcnt = s.lcnt + 1 := by
  simp [lcnt_eq]

end Sys2Proof.Machine
end

