-- ==== Sys2Proof/Laws/Flags.lean ====
section
/-! SUPPORT. The fields of a response word, and when each test of a command holds. -/

namespace Sys2Proof.Machine

@[simp] theorem rspStatus_rspWord (st : Status) (v : Byte) :
    rspStatus (rspWord st v) = statusCode st := by
  simp only [rspStatus, rspWord]
  ext i hi
  simp only [BitVec.getElem_extractLsb', BitVec.getLsbD_append]
  simp [BitVec.getLsbD_eq_getElem, hi]

@[simp] theorem rspValue_rspWord (st : Status) (v : Byte) : rspValue (rspWord st v) = v := by
  simp only [rspValue, rspWord]
  ext i hi
  simp only [BitVec.getElem_extractLsb', BitVec.getLsbD_append]
  simp [hi]

/-- A response word as a number (R55). -/
theorem rspWord_toNat (st : Status) (v : Byte) :
    (rspWord st v).toNat = (statusCode st).toNat * 256 + v.toNat := by
  rw [rspWord, BitVec.toNat_append, ← Nat.shiftLeft_add_eq_or_of_lt v.isLt, Nat.shiftLeft_eq]

@[simp] theorem statusOfCode_statusCode (st : Status) : statusOfCode (statusCode st) = some st := by
  cases st <;> rfl

theorem statusCode_inj {st st' : Status} : statusCode st = statusCode st' ↔ st = st' :=
  ⟨fun h => by simpa using congrArg statusOfCode h, fun h => h ▸ rfl⟩

/-- A response word determines its status and its value. -/
theorem rspWord_inj {st st' : Status} {v v' : Byte} :
    rspWord st v = rspWord st' v' ↔ st = st' ∧ v = v' :=
  ⟨fun h => ⟨statusCode_inj.1 (by simpa using congrArg rspStatus h),
    by simpa using congrArg rspValue h⟩, fun h => h.1 ▸ h.2 ▸ rfl⟩

@[simp] theorem isZero_iff {v : Byte} : isZero v = true ↔ v = 0#8 := by simp [isZero]

@[simp] theorem coefficientsFull_iff {s : State} : s.coefficientsFull = true ↔ 255 ≤ s.pcnt :=
  decide_eq_true_iff

@[simp] theorem coefficientsEmpty_iff {s : State} :
    s.coefficientsEmpty = true ↔ s.pcoef = [] := by
  simp [State.coefficientsEmpty, State.pcnt]

@[simp] theorem pointsFull_iff {s : State} : s.pointsFull = true ↔ 255 ≤ s.lcnt :=
  decide_eq_true_iff

@[simp] theorem tooFewPoints_iff {s : State} : s.tooFewPoints = true ↔ s.lcnt < 2 := by
  simp [State.tooFewPoints]

/-- The test for duplicates holds exactly when the x-coordinates are not pairwise distinct (R104). -/
theorem hasDuplicateX_eq_false_iff (pts : List Point) :
    hasDuplicateX pts = false ↔ distinctX pts := by
  induction pts with
  | nil => simp [hasDuplicateX, distinctX]
  | cons p ps ih =>
    simp only [distinctX] at ih
    simp [hasDuplicateX, distinctX, ih]

@[simp] theorem duplicatePoints_eq_false_iff {s : State} :
    s.duplicatePoints = false ↔ distinctX s.points := hasDuplicateX_eq_false_iff _

@[simp] theorem duplicatePoints_iff {s : State} :
    s.duplicatePoints = true ↔ ¬ distinctX s.points := by
  rw [← duplicatePoints_eq_false_iff, Bool.not_eq_false]

end Sys2Proof.Machine
end

