-- ==== Sys2Proof/Laws/Step.lean ====
section
/-! SUPPORT. What each shared operation of a step can do, said once: the operation's inversion lemma. -/

namespace Sys2Proof.Machine

/-- The end of a command that computes a byte. -/
theorem respondWith_eq_next {v : Except Fault Byte} {s t : State} :
    respondWith v s = .next t ↔ ∃ b, v = .ok b ∧ t = s.respond .ok b := by
  cases v <;> simp [respondWith, eq_comm]

@[simp] theorem respondWith_ok (b : Byte) (s : State) :
    respondWith (.ok b) s = .next (s.respond .ok b) := rfl

/-- What a successful command can leave in the buffers (R26). -/
inductive Written (s : State) : State → Prop where
  | nothing : Written s s
  | coefficientsCleared : Written s s.clearCoefficients
  | coefficientPushed (c : Byte) : s.pcnt < 255 → Written s (s.pushCoefficient c)
  | pointsCleared : Written s s.clearPoints
  | pointPushed (x y : Byte) : s.lcnt < 255 → Written s (s.pushPoint x y)

/-- `exec` is the parametric machine at the default parameters. -/
theorem exec_eq_execFor (i : Instr) (s : State) : exec i s = execFor Config.field i s := by
  cases i <;> rfl

/-- Everything a command can do when it answers a next state, under any parameters: it raises a
condition, or it succeeds with one of the writes of R26. -/
theorem execFor_next {F : FieldParams} {i : Instr} {s t : State} (h : execFor F i s = .next t) :
    (∃ c, c ≠ .ok ∧ t = s.raise c) ∨ (∃ v u, Written s u ∧ t = u.respond .ok v) := by
  have computed : ∀ {v}, respondWith v s = .next t → ∃ v u, Written s u ∧ t = u.respond .ok v :=
    fun h => let ⟨b, _, e⟩ := respondWith_eq_next.1 h; ⟨b, s, .nothing, e⟩
  have raised : ∀ {c : Status}, c ≠ .ok → (.next (s.raise c) : Result) = .next t →
      ∃ c, c ≠ Status.ok ∧ t = s.raise c := fun hc e => ⟨_, hc, (Host.Outcome.next.inj e).symm⟩
  cases i with
  | add a b => exact .inr ⟨_, _, .nothing, (Host.Outcome.next.inj h).symm⟩
  | sub a b => exact .inr ⟨_, _, .nothing, (Host.Outcome.next.inj h).symm⟩
  | mul a b => exact .inr (computed h)
  | div a b =>
    simp only [execFor, execDivFor] at h
    split at h
    · exact .inl (raised (by simp) h)
    · exact .inr (computed h)
  | inv a =>
    simp only [execFor, execInvFor] at h
    split at h
    · exact .inl (raised (by simp) h)
    · exact .inr (computed h)
  | pclr => exact .inr ⟨_, _, .coefficientsCleared, (Host.Outcome.next.inj h).symm⟩
  | ppush c =>
    simp only [execFor, execPpush, coefficientsFull_iff] at h
    split at h
    · exact .inl (raised (by simp) h)
    · exact .inr ⟨_, _, .coefficientPushed c (by omega), (Host.Outcome.next.inj h).symm⟩
  | peval x =>
    simp only [execFor, execPevalFor] at h
    split at h
    · exact .inl (raised (by simp) h)
    · exact .inr (computed h)
  | lclr => exact .inr ⟨_, _, .pointsCleared, (Host.Outcome.next.inj h).symm⟩
  | lpush x y =>
    simp only [execFor, execLpush, pointsFull_iff] at h
    split at h
    · exact .inl (raised (by simp) h)
    · exact .inr ⟨_, _, .pointPushed x y (by omega), (Host.Outcome.next.inj h).symm⟩
  | linterp =>
    simp only [execFor, execLinterpFor] at h
    split at h
    · exact .inl (raised (by simp) h)
    · split at h
      · exact .inl (raised (by simp) h)
      · exact .inr (computed h)

/-- The same, under the default parameters. -/
theorem exec_next {i : Instr} {s t : State} (h : exec i s = .next t) :
    (∃ c, c ≠ .ok ∧ t = s.raise c) ∨ (∃ v u, Written s u ∧ t = u.respond .ok v) :=
  execFor_next ((exec_eq_execFor i s).symm.trans h)

/-- What a command word in progress does: the command it decodes to, or `IllegalCommand`. -/
theorem runWith_of_ok {ex : Instr → State → Result} {w : CmdWord} {i : Instr} (h : decode w = .ok i)
    (s : State) : runWith ex w s = ex i s := by
  rw [runWith, h]

theorem runWith_of_error {ex : Instr → State → Result} {w : CmdWord} {e : IllegalWord}
    (h : decode w = .error e) (s : State) : runWith ex w s = .next (s.raise .illegalCommand) := by
  rw [runWith, h]

theorem runCommand_of_ok {w : CmdWord} {i : Instr} (h : decode w = .ok i) (s : State) :
    runCommand w s = exec i s := runWith_of_ok h s

theorem runCommand_of_error {w : CmdWord} {e : IllegalWord} (h : decode w = .error e) (s : State) :
    runCommand w s = .next (s.raise .illegalCommand) := runWith_of_error h s

/-- The four things a step can do: reset, perform the command in progress, accept the word offered,
or nothing. -/
theorem portStepWith_cases (ex : Instr → State → Result) (p : PortIn) (s : State) :
    (p.reset = true ∧ portStepWith ex p s = .next s.applyReset) ∨
    (∃ w, p.reset = false ∧ s.inProgress = some w ∧ portStepWith ex p s = runWith ex w s) ∨
    (p.reset = false ∧ s.inProgress = none ∧ p.cmdValid = true ∧
      portStepWith ex p s = .next (s.accept p.cmd)) ∨
    (p.reset = false ∧ s.inProgress = none ∧ p.cmdValid = false ∧ portStepWith ex p s = .next s) := by
  cases hr : p.reset
  · cases hb : s.inProgress with
    | some w => exact .inr (.inl ⟨w, rfl, rfl, by simp [portStepWith, hr, hb]⟩)
    | none =>
      cases hv : p.cmdValid
      · exact .inr (.inr (.inr ⟨rfl, rfl, rfl, by simp [portStepWith, hr, hb, State.idleStep, hv]⟩))
      · exact .inr (.inr (.inl ⟨rfl, rfl, rfl, by simp [portStepWith, hr, hb, State.idleStep, hv]⟩))
  · exact .inl ⟨rfl, by simp [portStepWith, hr]⟩

/-- The same, under the default parameters. -/
theorem portStep_cases (p : PortIn) (s : State) :
    (p.reset = true ∧ portStep p s = .next s.applyReset) ∨
    (∃ w, p.reset = false ∧ s.inProgress = some w ∧ portStep p s = runCommand w s) ∨
    (p.reset = false ∧ s.inProgress = none ∧ p.cmdValid = true ∧
      portStep p s = .next (s.accept p.cmd)) ∨
    (p.reset = false ∧ s.inProgress = none ∧ p.cmdValid = false ∧ portStep p s = .next s) :=
  portStepWith_cases exec p s

/-- The word placed for the next step is what that step performs, on the state it was placed in. -/
theorem step_withFetchWord (s : State) (nbits w : Nat) :
    step (s.withFetchWord nbits w) =
      runCommand (tableCmdWord nbits w)
        { s with inProgress := some (tableCmdWord nbits w) } := rfl

end Sys2Proof.Machine
end

