-- ==== Sys2Proof/Laws/HostProcedures.lean ====
section
/-! SUPPORT. A command issued by the host to an idle block, in terms of what the command does. -/

namespace Sys2Proof.Machine

/-- The state in which a command issued to `s` is performed: the word accepted, nothing driven. -/
def accepted (w : CmdWord) (s : State) : State := { s with inProgress := some w, rsp := none, inputs := [] }

@[simp] theorem accepted_pcoef (w : CmdWord) (s : State) : (accepted w s).pcoef = s.pcoef := rfl
@[simp] theorem accepted_points (w : CmdWord) (s : State) : (accepted w s).points = s.points := rfl
@[simp] theorem accepted_inputs (w : CmdWord) (s : State) : (accepted w s).inputs = [] := rfl

/-- An idle block performs the word it is handed (R51). -/
theorem transact_of_idle {s : State} (h : s.inProgress = none) (w : CmdWord) :
    transact w s = runCommand w (accepted w s) := by
  obtain ⟨pcoef, points, inProgress, rsp, inputs⟩ := s
  subst h
  rfl

/-- A command that succeeds gives the host its value. -/
theorem issue_of_ok {s u : State} {i : Instr} {v : Byte} (h : s.inProgress = none)
    (hd : decode (encode i) = .ok i)
    (he : exec i (accepted (encode i) s) = .next (u.respond .ok v)) :
    issue i s = .ok (v, u.respond .ok v) := by
  rw [issue, transact_of_idle h, runCommand_of_ok hd, he]
  simp

/-- A command that ends in a condition gives the host that condition. -/
theorem issue_of_raise {s u : State} {i : Instr} {c : Status} (h : s.inProgress = none)
    (hd : decode (encode i) = .ok i) (hc : c ≠ .ok)
    (he : exec i (accepted (encode i) s) = .next (u.raise c)) :
    issue i s = .error (.condition c) := by
  rw [issue, transact_of_idle h, runCommand_of_ok hd, he]
  cases c <;> simp at hc ⊢

@[simp] theorem issueAll_nil (s : State) : issueAll [] s = .ok ([], s) := rfl

theorem issueAll_cons_of_ok {i : Instr} {is : List Instr} {s t u : State} {v : Byte} {vs : List Byte}
    (h : issue i s = .ok (v, t)) (hs : issueAll is t = .ok (vs, u)) :
    issueAll (i :: is) s = .ok (v :: vs, u) := by
  rw [issueAll, h]
  change (issueAll is t >>= fun p => .ok (v :: p.1, p.2)) = _
  rw [hs]
  rfl

theorem issueAll_cons_of_error {i : Instr} {is : List Instr} {s : State} {e : HostFailure}
    (h : issue i s = .error e) : issueAll (i :: is) s = .error e := by
  rw [issueAll, h]
  rfl

/-- Commands issued one list after the other. -/
theorem issueAll_append_of_ok {is js : List Instr} {s t : State} {vs : List Byte}
    (h : issueAll is s = .ok (vs, t)) :
    issueAll (is ++ js) s = (issueAll js t >>= fun p => .ok (vs ++ p.1, p.2)) := by
  induction is generalizing s vs with
  | nil =>
    obtain ⟨rfl, rfl⟩ := Prod.mk.inj (Except.ok.inj h)
    rw [List.nil_append]
    cases issueAll js s <;> rfl
  | cons i is ih =>
    rw [issueAll] at h
    rw [List.cons_append, issueAll]
    cases hi : issue i s with
    | error e => rw [hi] at h; cases h
    | ok p =>
      rw [hi] at h
      change (issueAll is p.2 >>= fun q => .ok (p.1 :: q.1, q.2)) = _ at h
      change (issueAll (is ++ js) p.2 >>= fun q => .ok (p.1 :: q.1, q.2)) = _
      cases hs : issueAll is p.2 with
      | error e => rw [hs] at h; cases h
      | ok q =>
        rw [hs] at h
        obtain ⟨rfl, rfl⟩ := Prod.mk.inj (Except.ok.inj h)
        rw [ih hs]
        cases issueAll js q.2 <;> rfl

end Sys2Proof.Machine
end

