-- ==== Sys2Proof/Laws/PerInstr.lean ====
section
/-! SUPPORT. Statements about every command as syntax, one lemma per constructor. -/

namespace Sys2Proof.Laws.EncodedWordSelectsRow

/-- The encoded word of a command selects, in the opcode map of R56, the row of the command it stands
for. -/
def Statement (i : Instr) : Prop :=
  ∃ r ∈ opcodeMap, r.mnemonic = i.expand.mnemonic ∧ encode i &&& r.mask = r.bits

theorem mkCmd_and (op op' : BitVec 4) (a b a' b' : Byte) :
    mkCmd op a b &&& mkCmd op' a' b' = mkCmd (op &&& op') (a &&& a') (b &&& b') := by
  simp only [mkCmd]
  exact BitVec.and_append.trans (congrArg (· ++ (b &&& b')) BitVec.and_append)

/-- A row with `a` and `b` free (`ADD`, `MUL`, `DIV`, `LPUSH`). -/
theorem selects_two (op : BitVec 4) (a b : Byte) :
    mkCmd op a b &&& mkCmd 0xF#4 0x00#8 0x00#8 = mkCmd op 0x00#8 0x00#8 := by
  rw [mkCmd_and, show op &&& 0xF#4 = op from BitVec.and_allOnes, BitVec.and_zero, BitVec.and_zero]

/-- A row with `a` free and `b` zero (`INV`, `PPUSH`, `PEVAL`). -/
theorem selects_one (op : BitVec 4) (a : Byte) :
    mkCmd op a 0x00#8 &&& mkCmd 0xF#4 0x00#8 0xFF#8 = mkCmd op 0x00#8 0x00#8 := by
  rw [mkCmd_and, show op &&& 0xF#4 = op from BitVec.and_allOnes, BitVec.and_zero, BitVec.zero_and]

theorem add (a b : Byte) : Statement (.add a b) :=
  ⟨opcodeMap[0], by decide, rfl, selects_two 0x1#4 a b⟩

theorem mul (a b : Byte) : Statement (.mul a b) :=
  ⟨opcodeMap[1], by decide, rfl, selects_two 0x2#4 a b⟩

theorem div (a b : Byte) : Statement (.div a b) :=
  ⟨opcodeMap[2], by decide, rfl, selects_two 0x3#4 a b⟩

theorem inv (a : Byte) : Statement (.inv a) :=
  ⟨opcodeMap[3], by decide, rfl, selects_one 0x4#4 a⟩

theorem pclr : Statement .pclr := ⟨opcodeMap[4], by decide, rfl, by decide⟩

theorem ppush (c : Byte) : Statement (.ppush c) :=
  ⟨opcodeMap[5], by decide, rfl, selects_one 0x6#4 c⟩

theorem peval (x : Byte) : Statement (.peval x) :=
  ⟨opcodeMap[6], by decide, rfl, selects_one 0x7#4 x⟩

theorem lclr : Statement .lclr := ⟨opcodeMap[7], by decide, rfl, by decide⟩

theorem lpush (x y : Byte) : Statement (.lpush x y) :=
  ⟨opcodeMap[8], by decide, rfl, selects_two 0x9#4 x y⟩

theorem linterp : Statement .linterp := ⟨opcodeMap[9], by decide, rfl, by decide⟩

theorem sub (a b : Byte) : Statement (.sub a b) :=
  ⟨opcodeMap[0], by decide, rfl, selects_two 0x1#4 a b⟩

end Sys2Proof.Laws.EncodedWordSelectsRow
end

