-- ==== Sys2Proof/Laws/Units.lean ====
section
/-! SUPPORT. Under legal parameters the loops of the evaluator and of the interpolator fault nowhere, and
how each loop unfolds once a field function has answered. -/

namespace Sys2Proof.Machine

variable {F : FieldParams}

theorem hornerLoop_cons {x c acc p : Byte} {cs : List Byte} (h : gfMul F acc x = .ok p) :
    hornerLoop F x (c :: cs) acc = hornerLoop F x cs (gfAdd p c) := by
  rw [hornerLoop, h]
  rfl

theorem LegalParams.polyEval_isOk (hF : LegalParams F) (c : List Byte) (x : Byte) :
    ∃ v, polyEval F c x = .ok v := by
  have loop : ∀ (l : List Byte) (acc : Byte), ∃ v, hornerLoop F x l acc = .ok v := by
    intro l
    induction l with
    | nil => exact fun acc => ⟨acc, rfl⟩
    | cons c cs ih =>
      intro acc
      obtain ⟨p, hp⟩ := hF.gfMul_isOk acc x
      obtain ⟨v, hv⟩ := ih (gfAdd p c)
      exact ⟨v, (hornerLoop_cons hp).trans hv⟩
  exact loop _ _

theorem gfSub_eq_zero_iff {a b : Byte} : gfSub a b = 0#8 ↔ a = b := BitVec.xor_eq_zero_iff

theorem weightLoop_self {i : Nat} {xj w : Byte} {p : Point} {ps : List Point} :
    weightLoop F i xj i (p :: ps) w = weightLoop F i xj (i + 1) ps w := by
  rw [weightLoop, if_pos rfl]

theorem weightLoop_other {i j : Nat} {xj w q w' : Byte} {p : Point} {ps : List Point} (hij : i ≠ j)
    (hq : gfDiv F p.x (gfSub p.x xj) = .ok q) (hw : gfMul F w q = .ok w') :
    weightLoop F j xj i (p :: ps) w = weightLoop F j xj (i + 1) ps w' := by
  rw [weightLoop, if_neg hij, hq]
  change (gfMul F w q >>= fun w' => weightLoop F j xj (i + 1) ps w') = _
  rw [hw]
  rfl

theorem lagrangeLoop_cons {pts ps : List Point} {j : Nat} {acc w v : Byte} {p : Point}
    (hw : weightLoop F j p.x 0 pts 0x01#8 = .ok w) (hv : gfMul F p.y w = .ok v) :
    lagrangeLoop F pts j (p :: ps) acc = lagrangeLoop F pts (j + 1) ps (gfAdd acc v) := by
  rw [lagrangeLoop, hw]
  change (gfMul F p.y w >>= fun v => lagrangeLoop F pts (j + 1) ps (gfAdd acc v)) = _
  rw [hv]
  rfl

/-- Points at different indices have different x-coordinates. -/
theorem distinctX.ne {pts : List Point} (h : distinctX pts) {j k : Nat} {p q : Point}
    (hp : pts[j]? = some p) (hq : pts[k]? = some q) (hjk : j ≠ k) : p.x ≠ q.x := by
  obtain ⟨hj, rfl⟩ := List.getElem?_eq_some_iff.1 hp
  obtain ⟨hk, rfl⟩ := List.getElem?_eq_some_iff.1 hq
  intro heq
  have := (List.Nodup.getElem_inj_iff h (i := j) (hi := by simpa using hj) (j := k)
    (hj := by simpa using hk)).1 (by simpa using heq)
  exact hjk this

theorem LegalParams.weightLoop_isOk (hF : LegalParams F) (j : Nat) (xj : Byte) (ps : List Point) :
    ∀ (i : Nat) (w : Byte), (∀ k p, ps[k]? = some p → i + k ≠ j → p.x ≠ xj) →
      ∃ v, weightLoop F j xj i ps w = .ok v := by
  induction ps with
  | nil => exact fun i w _ => ⟨w, rfl⟩
  | cons p ps ih =>
    intro i w h
    have rest : ∀ k q, ps[k]? = some q → i + 1 + k ≠ j → q.x ≠ xj := fun k q hq hne =>
      h (k + 1) q (by simpa using hq) (by omega)
    by_cases hij : i = j
    · subst hij
      obtain ⟨v, hv⟩ := ih (i + 1) w rest
      exact ⟨v, weightLoop_self.trans hv⟩
    · have hd : gfSub p.x xj ≠ 0#8 := fun e => h 0 p rfl hij (gfSub_eq_zero_iff.1 e)
      obtain ⟨q, hq⟩ := hF.gfDiv_isOk p.x hd
      obtain ⟨w', hw⟩ := hF.gfMul_isOk w q
      obtain ⟨v, hv⟩ := ih (i + 1) w' rest
      exact ⟨v, (weightLoop_other hij hq hw).trans hv⟩

theorem LegalParams.lagrange0_isOk (hF : LegalParams F) {pts : List Point} (h : distinctX pts) :
    ∃ v, lagrange0 F pts = .ok v := by
  have loop : ∀ (ps : List Point) (j : Nat) (acc : Byte),
      (∀ k p, ps[k]? = some p → pts[j + k]? = some p) → ∃ v, lagrangeLoop F pts j ps acc = .ok v := by
    intro ps
    induction ps with
    | nil => exact fun j acc _ => ⟨acc, rfl⟩
    | cons p ps ih =>
      intro j acc hps
      obtain ⟨w, hw⟩ := hF.weightLoop_isOk j p.x pts 0 0x01#8 fun k q hq hne =>
        h.ne hq (hps 0 p rfl) (by omega)
      obtain ⟨v, hv⟩ := hF.gfMul_isOk p.y w
      obtain ⟨u, hu⟩ := ih (j + 1) (gfAdd acc v) fun k q hq => by
        rw [show j + 1 + k = j + (k + 1) by omega]
        exact hps (k + 1) q (by simpa using hq)
      exact ⟨u, (lagrangeLoop_cons hw hv).trans hu⟩
  exact loop pts 0 0#8 fun k p hk => by simpa using hk

end Sys2Proof.Machine
end

