-- ==== Sys2Proof/Machine/Notation.lean ====
section
/-! DEFINITION. The notation of commands and responses (spec/30_encoding.md R61). Nothing of the machine
depends on it. -/

namespace Sys2Proof.Machine

/-- One hexadecimal digit, upper case. -/
def hexDigit (n : Nat) : Char := if n < 10 then Char.ofNat (48 + n) else Char.ofNat (55 + n)

/-- A byte as R61 writes it: two hexadecimal digits after `0x`. -/
def hexByte (v : Byte) : String := String.ofList ['0', 'x', hexDigit (v.toNat / 16), hexDigit (v.toNat % 16)]

/-- The operands a command is written with, in field order; operands that must be zero are not written. -/
def writtenOperands : Instr → List Byte
  | .add a b   => [a, b]
  | .mul a b   => [a, b]
  | .div a b   => [a, b]
  | .inv a     => [a]
  | .pclr      => []
  | .ppush c   => [c]
  | .peval x   => [x]
  | .lclr      => []
  | .lpush x y => [x, y]
  | .linterp   => []
  | .sub a b   => [a, b]

/-- A command in the notation of R61: the mnemonic, then its operands, comma-separated. -/
def showInstr (i : Instr) : String :=
  match (writtenOperands i).map hexByte with
  | []      => i.mnemonic
  | o :: os => os.foldl (fun t u => t ++ ", " ++ u) (i.mnemonic ++ " " ++ o)

/-- The name of a status (R131). -/
def statusName : Status → String
  | .ok                 => "OK"
  | .divisionByZero     => "DivisionByZero"
  | .invalidParameters  => "InvalidParameters"
  | .duplicateShare     => "DuplicateShare"
  | .inconsistentShares => "InconsistentShares"
  | .illegalCommand     => "IllegalCommand"

/-- A response in the notation of R61: the name of its status and, when it is `OK`, its value; `none`
for a word with a status code that is never produced. -/
def showResponse (r : RspWord) : Option String :=
  match statusOfCode (rspStatus r) with
  | some .ok => some ("OK " ++ hexByte (rspValue r))
  | some st  => some (statusName st)
  | none     => none

end Sys2Proof.Machine
end

