-- ==== Sys2Proof/Tests/Slice0.lean ====
section
/-! SUPPORT. Tests. Every expected value comes from spec/95_test_vectors.md, from the listings of
spec/10_state.md, or from the worked example of the rule named. The theorems named `witness_…` show, for
the statements of Obligations.lean that have hypotheses, values that meet them. -/

namespace Sys2Proof.Tests

open Sys2Proof Sys2Proof.Machine

/-- A state that holds these coefficients and points, idle. -/
def holding (cs : List Byte) (pts : List Point) : State :=
  { State.reset with pcoef := cs, points := pts }

/-- The state with the word in progress. -/
def busyWith (w : CmdWord) (s : State) : State := { s with inProgress := some w }

/-- The response presented in the next state. -/
def rspOf (o : Result) : Option RspWord :=
  match o with
  | .next t    => t.rsp
  | .fault _   => none
  | .refused _ => none

/-- The next state. -/
def nextOf (o : Result) : Option State :=
  match o with
  | .next t    => some t
  | .fault _   => none
  | .refused _ => none

/-- The value of a computation that reads tables. -/
def valueOf {α : Type} (v : Except Fault α) : Option α :=
  match v with
  | .ok b    => some b
  | .error _ => none

/-- The parameters of every concrete field value of the spec, `POLY = 0x11D` (R3). -/
abbrev f11D : FieldParams := { poly := 0x11D#9, gen := 0x02#8 }

theorem test_default_parameters : Config.field = f11D := rfl

/-- 255 coefficients. -/
def fullCoefficients : State := holding (List.replicate 255 0x11#8) []

/-- 255 points with the x-coordinates 0x01 to 0xFF. -/
def fullPoints : State := holding [] ((List.range 255).map fun j => ⟨BitVec.ofNat 8 (j + 1), 0x42#8⟩)

/-! ### Well-formedness -/

theorem test_wellFormed_refuses_the_pseudo_command :
    (Instr.sub 0x53 0xCA).wellFormed = false := by decide

theorem test_wellFormed_takes_its_expansion :
    (Instr.sub 0x53 0xCA).expand.wellFormed = true := by decide

/-! ### Decoding: words written out from R56, with the operands of 95_test_vectors.md section 3 -/

theorem test_decode_add : decode 0b0001_01010011_11001010#20 = .ok (.add 0x53 0xCA) := by rfl
theorem test_decode_mul : decode 0b0010_01010111_10000011#20 = .ok (.mul 0x57 0x83) := by rfl
theorem test_decode_div : decode 0b0011_00000001_11111111#20 = .ok (.div 0x01 0xFF) := by rfl
theorem test_decode_inv : decode 0b0100_01010011_00000000#20 = .ok (.inv 0x53) := by rfl
theorem test_decode_pclr : decode 0b0101_00000000_00000000#20 = .ok .pclr := by rfl
theorem test_decode_ppush : decode 0b0110_10101011_00000000#20 = .ok (.ppush 0xAB) := by rfl
theorem test_decode_peval : decode 0b0111_00000010_00000000#20 = .ok (.peval 0x02) := by rfl
theorem test_decode_lclr : decode 0b1000_00000000_00000000#20 = .ok .lclr := by rfl
theorem test_decode_lpush : decode 0b1001_00000010_00101100#20 = .ok (.lpush 0x02 0x2C) := by rfl
theorem test_decode_linterp : decode 0b1010_00000000_00000000#20 = .ok .linterp := by rfl

/-- `SUB 0x53, 0xCA` is the word of `ADD 0x53, 0xCA` (R62). -/
theorem test_encode_sub : encode (.sub 0x53 0xCA) = 0x153CA#20 := by decide

theorem test_decode_refuses_reserved :
    [0x00000#20, 0x0ABCD#20, 0xB0000#20, 0xC1234#20, 0xD0000#20, 0xE00FF#20, 0xFFFFF#20].all
      (fun w => !(decode w).isOk) = true := by decide

theorem test_decode_refuses_operands_that_must_be_zero :
    [0x40001#20, 0x45301#20, 0x50100#20, 0x500FF#20, 0x6AB01#20, 0x70201#20, 0x80001#20,
      0xA0100#20].all (fun w => !(decode w).isOk) = true := by decide

theorem test_decodeTableWord : decodeTableWord 24 0x253CA = some (.mul 0x53 0xCA) := by decide

theorem test_decodeTableWord_refuses_more_bits : decodeTableWord 24 0x1253CA = none := by decide

/-! ### The tables, against the listings of 10_state.md sections 2.1 and 2.2 -/

theorem test_exp_listing : (List.range 256).map (powGen f11D) =
  [0x01, 0x02, 0x04, 0x08, 0x10, 0x20, 0x40, 0x80, 0x1D, 0x3A, 0x74, 0xE8, 0xCD, 0x87, 0x13, 0x26] ++
  [0x4C, 0x98, 0x2D, 0x5A, 0xB4, 0x75, 0xEA, 0xC9, 0x8F, 0x03, 0x06, 0x0C, 0x18, 0x30, 0x60, 0xC0] ++
  [0x9D, 0x27, 0x4E, 0x9C, 0x25, 0x4A, 0x94, 0x35, 0x6A, 0xD4, 0xB5, 0x77, 0xEE, 0xC1, 0x9F, 0x23] ++
  [0x46, 0x8C, 0x05, 0x0A, 0x14, 0x28, 0x50, 0xA0, 0x5D, 0xBA, 0x69, 0xD2, 0xB9, 0x6F, 0xDE, 0xA1] ++
  [0x5F, 0xBE, 0x61, 0xC2, 0x99, 0x2F, 0x5E, 0xBC, 0x65, 0xCA, 0x89, 0x0F, 0x1E, 0x3C, 0x78, 0xF0] ++
  [0xFD, 0xE7, 0xD3, 0xBB, 0x6B, 0xD6, 0xB1, 0x7F, 0xFE, 0xE1, 0xDF, 0xA3, 0x5B, 0xB6, 0x71, 0xE2] ++
  [0xD9, 0xAF, 0x43, 0x86, 0x11, 0x22, 0x44, 0x88, 0x0D, 0x1A, 0x34, 0x68, 0xD0, 0xBD, 0x67, 0xCE] ++
  [0x81, 0x1F, 0x3E, 0x7C, 0xF8, 0xED, 0xC7, 0x93, 0x3B, 0x76, 0xEC, 0xC5, 0x97, 0x33, 0x66, 0xCC] ++
  [0x85, 0x17, 0x2E, 0x5C, 0xB8, 0x6D, 0xDA, 0xA9, 0x4F, 0x9E, 0x21, 0x42, 0x84, 0x15, 0x2A, 0x54] ++
  [0xA8, 0x4D, 0x9A, 0x29, 0x52, 0xA4, 0x55, 0xAA, 0x49, 0x92, 0x39, 0x72, 0xE4, 0xD5, 0xB7, 0x73] ++
  [0xE6, 0xD1, 0xBF, 0x63, 0xC6, 0x91, 0x3F, 0x7E, 0xFC, 0xE5, 0xD7, 0xB3, 0x7B, 0xF6, 0xF1, 0xFF] ++
  [0xE3, 0xDB, 0xAB, 0x4B, 0x96, 0x31, 0x62, 0xC4, 0x95, 0x37, 0x6E, 0xDC, 0xA5, 0x57, 0xAE, 0x41] ++
  [0x82, 0x19, 0x32, 0x64, 0xC8, 0x8D, 0x07, 0x0E, 0x1C, 0x38, 0x70, 0xE0, 0xDD, 0xA7, 0x53, 0xA6] ++
  [0x51, 0xA2, 0x59, 0xB2, 0x79, 0xF2, 0xF9, 0xEF, 0xC3, 0x9B, 0x2B, 0x56, 0xAC, 0x45, 0x8A, 0x09] ++
  [0x12, 0x24, 0x48, 0x90, 0x3D, 0x7A, 0xF4, 0xF5, 0xF7, 0xF3, 0xFB, 0xEB, 0xCB, 0x8B, 0x0B, 0x16] ++
  [0x2C, 0x58, 0xB0, 0x7D, 0xFA, 0xE9, 0xCF, 0x83, 0x1B, 0x36, 0x6C, 0xD8, 0xAD, 0x47, 0x8E, 0x01] := by
  decide +kernel

theorem test_log_listing :
    (List.range 256).map (fun v => valueOf (readLog f11D (BitVec.ofNat 8 v))) =
  [none, some 0x00, some 0x01, some 0x19, some 0x02, some 0x32, some 0x1A, some 0xC6, some 0x03, some 0xDF, some 0x33, some 0xEE, some 0x1B, some 0x68, some 0xC7, some 0x4B] ++
  [some 0x04, some 0x64, some 0xE0, some 0x0E, some 0x34, some 0x8D, some 0xEF, some 0x81, some 0x1C, some 0xC1, some 0x69, some 0xF8, some 0xC8, some 0x08, some 0x4C, some 0x71] ++
  [some 0x05, some 0x8A, some 0x65, some 0x2F, some 0xE1, some 0x24, some 0x0F, some 0x21, some 0x35, some 0x93, some 0x8E, some 0xDA, some 0xF0, some 0x12, some 0x82, some 0x45] ++
  [some 0x1D, some 0xB5, some 0xC2, some 0x7D, some 0x6A, some 0x27, some 0xF9, some 0xB9, some 0xC9, some 0x9A, some 0x09, some 0x78, some 0x4D, some 0xE4, some 0x72, some 0xA6] ++
  [some 0x06, some 0xBF, some 0x8B, some 0x62, some 0x66, some 0xDD, some 0x30, some 0xFD, some 0xE2, some 0x98, some 0x25, some 0xB3, some 0x10, some 0x91, some 0x22, some 0x88] ++
  [some 0x36, some 0xD0, some 0x94, some 0xCE, some 0x8F, some 0x96, some 0xDB, some 0xBD, some 0xF1, some 0xD2, some 0x13, some 0x5C, some 0x83, some 0x38, some 0x46, some 0x40] ++
  [some 0x1E, some 0x42, some 0xB6, some 0xA3, some 0xC3, some 0x48, some 0x7E, some 0x6E, some 0x6B, some 0x3A, some 0x28, some 0x54, some 0xFA, some 0x85, some 0xBA, some 0x3D] ++
  [some 0xCA, some 0x5E, some 0x9B, some 0x9F, some 0x0A, some 0x15, some 0x79, some 0x2B, some 0x4E, some 0xD4, some 0xE5, some 0xAC, some 0x73, some 0xF3, some 0xA7, some 0x57] ++
  [some 0x07, some 0x70, some 0xC0, some 0xF7, some 0x8C, some 0x80, some 0x63, some 0x0D, some 0x67, some 0x4A, some 0xDE, some 0xED, some 0x31, some 0xC5, some 0xFE, some 0x18] ++
  [some 0xE3, some 0xA5, some 0x99, some 0x77, some 0x26, some 0xB8, some 0xB4, some 0x7C, some 0x11, some 0x44, some 0x92, some 0xD9, some 0x23, some 0x20, some 0x89, some 0x2E] ++
  [some 0x37, some 0x3F, some 0xD1, some 0x5B, some 0x95, some 0xBC, some 0xCF, some 0xCD, some 0x90, some 0x87, some 0x97, some 0xB2, some 0xDC, some 0xFC, some 0xBE, some 0x61] ++
  [some 0xF2, some 0x56, some 0xD3, some 0xAB, some 0x14, some 0x2A, some 0x5D, some 0x9E, some 0x84, some 0x3C, some 0x39, some 0x53, some 0x47, some 0x6D, some 0x41, some 0xA2] ++
  [some 0x1F, some 0x2D, some 0x43, some 0xD8, some 0xB7, some 0x7B, some 0xA4, some 0x76, some 0xC4, some 0x17, some 0x49, some 0xEC, some 0x7F, some 0x0C, some 0x6F, some 0xF6] ++
  [some 0x6C, some 0xA1, some 0x3B, some 0x52, some 0x29, some 0x9D, some 0x55, some 0xAA, some 0xFB, some 0x60, some 0x86, some 0xB1, some 0xBB, some 0xCC, some 0x3E, some 0x5A] ++
  [some 0xCB, some 0x59, some 0x5F, some 0xB0, some 0x9C, some 0xA9, some 0xA0, some 0x51, some 0x0B, some 0xF5, some 0x16, some 0xEB, some 0x7A, some 0x75, some 0x2C, some 0xD7] ++
  [some 0x4F, some 0xAE, some 0xD5, some 0xE9, some 0xE6, some 0xE7, some 0xAD, some 0xE8, some 0x74, some 0xD6, some 0xF4, some 0xEA, some 0xA8, some 0x50, some 0x58, some 0xAF] := by
  decide +kernel

theorem test_exp_255 : valueOf (readExp f11D 255) = some 0x01#8 := by decide +kernel

theorem test_exp_256_faults : valueOf (readExp f11D 256) = none := by decide

/-! ### Commands: 95_test_vectors.md section 3 -/

theorem test_add : rspOf (exec (.add 0x53 0xCA) .reset) = some 0x099#12 := by decide
theorem test_add_has_no_carry : rspOf (exec (.add 0xFF 0x01) .reset) = some 0x0FE#12 := by decide
theorem test_sub : rspOf (exec (.sub 0x53 0xCA) .reset) = some 0x099#12 := by decide

theorem test_mul : rspOf (execFor f11D (.mul 0x53 0xCA) .reset) = some 0x08F#12 := by decide +kernel

/-- The largest sum of logarithms, 508 (R76). -/
theorem test_mul_largest_log_sum :
    rspOf (execFor f11D (.mul 0x8E 0x8E) .reset) = some 0x047#12 := by decide +kernel

/-- Under another polynomial, 0x11B, the products are others (91_not_in_source.md N3). -/
theorem test_mul_other_polynomial :
    rspOf (execFor { poly := 0x11B#9, gen := 0x03#8 } (.mul 0x53 0xCA) .reset) = some 0x001#12 ∧
    rspOf (execFor { poly := 0x11B#9, gen := 0x03#8 } (.mul 0x02 0x80) .reset) = some 0x01B#12 := by
  decide +kernel

/-- A negative difference of logarithms (R82). -/
theorem test_div : rspOf (execFor f11D (.div 0xCA 0x53) .reset) = some 0x0EC#12 := by decide +kernel

/-- The divisor test comes before the bypass of a zero dividend (R140). -/
theorem test_div_zero_by_zero : rspOf (exec (.div 0x00 0x00) .reset) = some 0x100#12 := by decide

/-- The one read of `EXP[255]` (R83). -/
theorem test_inv_one : rspOf (execFor f11D (.inv 0x01) .reset) = some 0x001#12 := by decide +kernel
theorem test_inv : rspOf (execFor f11D (.inv 0x53) .reset) = some 0x08C#12 := by decide +kernel

theorem test_pclr : nextOf (exec .pclr (holding [0xAB, 0xCD] [])) =
    some { State.reset with rsp := some 0x000#12 } := by decide

theorem test_ppush : nextOf (exec (.ppush 0xCD) (holding [0xAB] [])) =
    some { holding [0xAB, 0xCD] [] with rsp := some 0x002#12 } := by decide

theorem test_ppush_full : nextOf (exec (.ppush 0x77) fullCoefficients) =
    some { fullCoefficients with rsp := some 0x200#12 } := by decide +kernel

theorem test_peval : rspOf (execFor f11D (.peval 0x02) (holding [0xAB, 0xCD] [])) = some 0x02C#12 := by
  decide +kernel

theorem test_peval_empty : rspOf (exec (.peval 0x05) .reset) = some 0x200#12 := by decide

theorem test_lclr : nextOf (exec .lclr (holding [] [⟨0x01, 0x66⟩])) =
    some { State.reset with rsp := some 0x000#12 } := by decide

theorem test_lpush : nextOf (exec (.lpush 0x02 0x2C) (holding [] [⟨0x01, 0x66⟩])) =
    some { holding [] [⟨0x01, 0x66⟩, ⟨0x02, 0x2C⟩] with rsp := some 0x002#12 } := by decide

/-- The 255th push answers 0xFF. -/
theorem test_ppush_255th :
    rspOf (exec (.ppush 0xFF) (holding (List.replicate 254 0x11#8) [])) = some 0x0FF#12 := by
  decide +kernel

theorem test_lpush_full : rspOf (exec (.lpush 0x00 0x11) fullPoints) = some 0x200#12 := by
  decide +kernel

theorem test_linterp :
    rspOf (execFor f11D .linterp (holding [] [⟨0x05, 0x2E⟩, ⟨0x01, 0xF0⟩, ⟨0x03, 0x68⟩])) =
      some 0x048#12 := by decide +kernel

theorem test_linterp_duplicate :
    rspOf (exec .linterp (holding [] [⟨0x01, 0x66⟩, ⟨0x01, 0x67⟩])) = some 0x300#12 := by decide

/-! ### Steps -/

/-- An offered word is accepted, and the earlier response no longer presented. -/
theorem test_step_accepts :
    nextOf (step { holding [0xAB] [] with rsp := some 0x001#12, inputs := [PortIn.offer 0x70000#20] }) =
      some (busyWith 0x70000#20 (holding [0xAB] [])) := by decide

/-- The command in progress is performed; what is offered meanwhile is not accepted. -/
theorem test_step_performs :
    nextOf (step { busyWith 0x6AB00#20 .reset with inputs := [PortIn.offer 0x50000#20] }) =
      some { holding [0xAB] [] with rsp := some 0x001#12 } := by decide

/-- 0x40001 is illegal, not `INV 0x00` (95_test_vectors.md sections 3.7 and 5). -/
theorem test_step_illegal : rspOf (step (busyWith 0x40001#20 .reset)) = some 0x500#12 := by decide

/-- Reset while a command is busy abandons it (R151, 95_test_vectors.md P6). -/
theorem test_step_reset :
    nextOf (step { busyWith 0x70200#20 (holding [0xAB, 0xCD] []) with
      inputs := [PortIn.assertReset] }) = some .reset := by decide

theorem test_withFetchWord :
    rspOf (stepFor f11D (State.reset.withFetchWord 24 0x253CA)) = some 0x08F#12 := by decide +kernel

/-! ### Notation (R61) and shares (R121) -/

theorem test_showInstr : showInstr (.mul 0x53 0xCA) = "MUL 0x53, 0xCA" := by decide +kernel
theorem test_showInstr_bare : showInstr .linterp = "LINTERP" := by decide +kernel
theorem test_showResponse : showResponse 0x08F#12 = some "OK 0x8F" := by decide +kernel
theorem test_showResponse_condition : showResponse 0x100#12 = some "DivisionByZero" := by
  decide +kernel

/-- Duplicate x-coordinates are found whatever the y-sequences (R116). -/
theorem test_recover_duplicate_empty :
    (match recover [⟨0x01, []⟩, ⟨0x01, []⟩] .reset with
      | .error e => e == .condition .duplicateShare
      | .ok _    => false) = true := by decide

/-- 95_test_vectors.md section 1.3. -/
theorem test_encodeShare : encodeShare ⟨0x02, [0xD0, 0x99]⟩ = [0x02, 0xD0, 0x99] := by decide

/-! ### Witnesses of the hypotheses in Obligations.lean -/

theorem witness_LegalWordsCorrespondToCommands :
    (Instr.lpush 0xFF 0xFF).wellFormed = true ∧ decode 0x9FFFF#20 = .ok (.lpush 0xFF 0xFF) :=
  ⟨rfl, rfl⟩

/-- An idle block with a word offered. -/
def offered (w : CmdWord) : State := { State.reset with inputs := [PortIn.offer w] }

/-- One word for each alternative of R58, at the edges of the reserved opcodes. -/
theorem witness_IllegalWordsAreAnsweredAndChangeNothing :
    (offered 0x45301#20).portIn = ⟨false, true, 0x45301#20⟩ ∧ (offered 0x45301#20).inProgress = none ∧
    (busyWith 0x45301#20 .reset).portIn.reset = false ∧
    (busyWith 0x45301#20 .reset).inProgress = some 0x45301#20 ∧
    decode 0x45301#20 = .error (.mustBeZero 0x4#4) ∧
    decode 0x0ABCD#20 = .error (.reservedOpcode 0x0#4) ∧
    decode 0xB0000#20 = .error (.reservedOpcode 0xB#4) ∧
    decode 0xFFFFF#20 = .error (.reservedOpcode 0xF#4) ∧
    decode 0x50100#20 = .error (.mustBeZero 0x5#4) ∧
    decode 0xA0001#20 = .error (.mustBeZero 0xA#4) :=
  ⟨rfl, rfl, rfl, rfl, rfl, rfl, rfl, rfl, rfl, rfl⟩

theorem witness_StepPerformsTheDecodedCommand :
    (busyWith 0x153CA#20 .reset).portIn.reset = false ∧
    (busyWith 0x153CA#20 .reset).inProgress = some 0x153CA#20 ∧
    decode 0x153CA#20 = .ok (.add 0x53 0xCA) := ⟨rfl, rfl, rfl⟩

theorem witness_IdleBlockAcceptsTheOfferedWord :
    (offered 0x153CA#20).portIn.reset = false ∧ (offered 0x153CA#20).portIn.cmdValid = true ∧
    (offered 0x153CA#20).inProgress = none := ⟨rfl, rfl, rfl⟩

theorem witness_IdleBlockKeepsItsState :
    State.reset.portIn.reset = false ∧ State.reset.portIn.cmdValid = false ∧
    State.reset.inProgress = none := ⟨rfl, rfl, rfl⟩

theorem witness_AcceptedCommandGetsOneResponse :
    ∃ (s : State) (p q : PortIn), s.inProgress = none ∧ s.inputs = p :: q :: [] ∧
      p.reset = false ∧ p.cmdValid = true ∧ q.reset = false ∧ ∃ t, step s = .next t :=
  ⟨{ State.reset with inputs := [.offer 0xA0000#20, .offer 0x153CA#20] }, .offer 0xA0000#20,
    .offer 0x153CA#20, rfl, rfl, rfl, rfl, rfl, _, rfl⟩

theorem witness_ResetOverridesEverything :
    State.portIn { busyWith 0xA0000#20 .reset with inputs := [⟨true, true, 0x153CA#20⟩] } =
      ⟨true, true, 0x153CA#20⟩ := rfl

/-- A full buffer, and a busy block. -/
theorem witness_StepKeepsTheInvariant :
    fullCoefficients.Inv ∧ fullPoints.Inv ∧ (busyWith 0x153CA#20 .reset).Inv ∧
    ∃ t, step (busyWith 0x153CA#20 .reset) = .next t := by
  refine ⟨⟨?_, ?_, ?_, ?_⟩, ⟨?_, ?_, ?_, ?_⟩, ⟨?_, ?_, ?_, ?_⟩, _, rfl⟩ <;>
    first | decide +kernel | exact fun _ => rfl | exact fun _ h => nomatch h

theorem witness_OutcomeDependsOnBuffersAndWordOnly :
    ∃ (s s' t : State), s ≠ s' ∧ s'.pcoef = s.pcoef ∧ s'.points = s.points ∧
      runCommand 0x6CD00#20 s = .next t :=
  ⟨holding [0xAB] [], { holding [0xAB] [] with rsp := some 0x100#12 }, _, by decide, rfl, rfl, rfl⟩

theorem witness_ConditionChangesNothing :
    ∃ t r, runCommand 0x30100#20 .reset = .next t ∧ t.rsp = some r ∧ rspStatus r ≠ 0x0#4 :=
  ⟨_, _, rfl, rfl, by decide⟩

/-- Each alternative of each command, at the edge of its condition. -/
theorem witness_StatusOfEachCommand :
    State.reset.Inv ∧ fullCoefficients.pcnt = 255 ∧ fullPoints.lcnt = 255 ∧
    rspOf (exec (.ppush 0x77) fullCoefficients) = some 0x200#12 ∧
    rspOf (exec (.ppush 0x77) (holding (List.replicate 254 0x11#8) [])) = some 0x0FF#12 ∧
    rspOf (exec (.peval 0x05) .reset) = some 0x200#12 ∧
    rspOf (exec (.lpush 0x00 0x11) fullPoints) = some 0x200#12 ∧
    rspOf (exec .linterp (holding [] [⟨0x01, 0x66⟩])) = some 0x400#12 ∧
    rspOf (exec .linterp (holding [] [⟨0x01, 0x66⟩, ⟨0x01, 0x66⟩])) = some 0x300#12 ∧
    rspOf (exec .linterp (holding [] [⟨0x01, 0x66⟩, ⟨0x02, 0x2C⟩])) = some 0x0AB#12 ∧
    rspOf (runCommand 0x40001#20 .reset) = some 0x500#12 := by
  refine ⟨⟨by decide, by decide, fun _ => rfl, fun _ h => nomatch h⟩, ?_⟩
  decide +kernel

theorem witness_DivisionByZeroIsRaisedByDivAndInvOnly :
    ∃ t r, exec (.div 0xFF 0x00) .reset = .next t ∧ t.rsp = some r ∧ rspStatus r = 0x1#4 :=
  ⟨_, _, rfl, rfl, by decide⟩

theorem witness_ReadersLeaveTheBuffers :
    ∃ t, exec .linterp (holding [0xAB] [⟨0x01, 0x66⟩]) = .next t := ⟨_, rfl⟩

theorem witness_BufferGroupsAreIndependent :
    (∃ t, exec (.ppush 0x01) (holding [0xAB] [⟨0x01, 0x66⟩]) = .next t) ∧
    (∃ t, exec (.lpush 0x02 0x2C) (holding [0xAB] [⟨0x01, 0x66⟩]) = .next t) :=
  ⟨⟨_, rfl⟩, ⟨_, rfl⟩⟩

/-- The default parameters, and the same modulus with the generator 0x04. -/
theorem witness_legal_parameters :
    LegalParams Config.field ∧ LegalParams { poly := 0x11D#9, gen := 0x04#8 } :=
  ⟨config_legal,
    legal_of_order (by decide) (by decide +kernel) (by decide +kernel) (by decide +kernel)⟩

/-- One state for all clauses of `FieldCommandsUnderAllParameters`, under `POLY = 0x11D`. -/
theorem witness_FieldCommandsUnderAllParameters :
    (holding [0xAB, 0xCD] [⟨0x01, 0x66⟩, ⟨0x02, 0x2C⟩]).pcnt ≠ 0 ∧
    2 ≤ (holding [0xAB, 0xCD] [⟨0x01, 0x66⟩, ⟨0x02, 0x2C⟩]).lcnt ∧
    distinctX [⟨0x01, 0x66⟩, ⟨0x02, 0x2C⟩] ∧
    liesOn f11D.poly [0xAB, 0xCD] [⟨0x01, 0x66⟩, ⟨0x02, 0x2C⟩] := by
  refine ⟨by decide, by decide, ?_, ?_⟩
  · unfold distinctX; decide
  · unfold liesOn; decide +kernel

/-- Legal parameters with another modulus, 0x11B, and its generator 0x03. -/
theorem witness_legal_parameters_other_modulus : LegalParams { poly := 0x11B#9, gen := 0x03#8 } :=
  legal_of_order (by decide) (by decide +kernel) (by decide +kernel) (by decide +kernel)

/-- The operands of the field statements and of `DIV` and `INV`: zero, and the least and the greatest
byte that is not. -/
theorem witness_divisors : (0x00#8 : Byte) = 0x00#8 ∧ (0x01#8 : Byte) ≠ 0x00#8 ∧
    (0xFF#8 : Byte) ≠ 0x00#8 := by decide

theorem witness_PpushAppendsTheCoefficient :
    State.reset.Inv ∧ State.reset.pcnt ≠ 255 ∧
    (holding (List.replicate 254 0x11#8) []).Inv ∧
    (holding (List.replicate 254 0x11#8) []).pcnt ≠ 255 ∧
    fullCoefficients.Inv ∧ fullCoefficients.pcnt = 255 := by
  refine ⟨⟨?_, ?_, ?_, ?_⟩, ?_, ⟨?_, ?_, ?_, ?_⟩, ?_, ⟨?_, ?_, ?_, ?_⟩, ?_⟩ <;>
    first | decide +kernel | exact fun _ => rfl | exact fun _ h => nomatch h

theorem witness_PevalAnswersTheValue :
    State.reset.pcnt = 0 ∧ (holding [0xAB] []).pcnt ≠ 0 ∧ fullCoefficients.pcnt ≠ 0 := by
  decide +kernel

theorem witness_PevalAtZeroAnswersTheConstantTerm :
    (holding [0xAB, 0xCD] []).pcoef[0]? = some 0xAB#8 := rfl

theorem witness_PushedCoefficientsAreHeldInOrder :
    State.reset.inProgress = none ∧ (List.replicate 255 (0x11#8 : Byte)).length ≤ 255 := by
  decide +kernel

theorem witness_LpushAppendsThePoint :
    State.reset.Inv ∧ State.reset.lcnt ≠ 255 ∧ fullPoints.Inv ∧ fullPoints.lcnt = 255 := by
  refine ⟨⟨?_, ?_, ?_, ?_⟩, ?_, ⟨?_, ?_, ?_, ?_⟩, ?_⟩ <;>
    first | decide +kernel | exact fun _ => rfl | exact fun _ h => nomatch h

/-- The points of 95_test_vectors.md P2: on `0xAB + 0xCD * x`. -/
def twoPoints : State := holding [] [⟨0x01, 0x66⟩, ⟨0x02, 0x2C⟩]

/-- One point, two with the same x-coordinate, two with different ones. -/
theorem witness_LinterpAnswersTheInterpolatedValue :
    (holding [] [⟨0x01, 0x66⟩]).lcnt < 2 ∧
    (∃ (j k : Nat) (p q : Point), j < k ∧
      (holding [] [⟨0x01, 0x66⟩, ⟨0x01, 0x67⟩]).points[j]? = some p ∧
      (holding [] [⟨0x01, 0x66⟩, ⟨0x01, 0x67⟩]).points[k]? = some q ∧ p.x = q.x) ∧
    2 ≤ twoPoints.lcnt ∧
    (∀ (j k : Nat) (p q : Point), j < k → twoPoints.points[j]? = some p →
      twoPoints.points[k]? = some q → p.x ≠ q.x) := by
  refine ⟨by decide, ⟨0, 1, _, _, by decide, rfl, rfl, rfl⟩, by decide, fun j k p q hjk hp hq => ?_⟩
  match j, k with
  | 0, 1 => cases hp; cases hq; decide
  | _ + 1, k + 2 => cases hq
  | 0, k + 2 => cases hq

/-- Also the hypotheses of `LagrangeGivesTheUniquePolynomialAtZero`. -/
theorem witness_LinterpRecoversTheConstantTerm :
    2 ≤ twoPoints.lcnt ∧ distinctX twoPoints.points ∧ [0xAB#8, 0xCD#8].length ≤ twoPoints.lcnt ∧
    liesOn 0x11D#9 [0xAB, 0xCD] twoPoints.points := by
  refine ⟨by decide, ?_, by decide, ?_⟩
  · unfold distinctX; decide
  · unfold liesOn; decide +kernel

theorem witness_LinterpIgnoresTheOrderOfPoints :
    [⟨0x02, 0x2C⟩, ⟨0x01, 0x66⟩].Perm twoPoints.points ∧
    rspOf (exec .linterp twoPoints) = some 0x0AB#12 :=
  ⟨List.Perm.swap .., by decide +kernel⟩

theorem witness_PointAtZeroDecidesTheResult :
    2 ≤ (holding [] [⟨0x00, 0x5A⟩, ⟨0x01, 0x66⟩, ⟨0x02, 0x2C⟩]).lcnt ∧
    distinctX (holding [] [⟨0x00, 0x5A⟩, ⟨0x01, 0x66⟩, ⟨0x02, 0x2C⟩]).points ∧
    ⟨0x00, 0x5A⟩ ∈ (holding [] [⟨0x00, 0x5A⟩, ⟨0x01, 0x66⟩, ⟨0x02, 0x2C⟩]).points := by
  unfold distinctX; decide

theorem witness_ShareEncodingRoundTrip :
    decodeShare [0x02, 0xD0, 0x99] = .ok ⟨0x02, [0xD0, 0x99]⟩ := rfl

/-- Each way to be outside the bounds, at the edge. -/
theorem witness_GenerateChecksItsParameters :
    ([] : List Byte) = [] ∧ (0 : Nat) < 1 ∧ (2 : Nat) < 3 ∧ (255 : Nat) < 256 := by decide

/-- One share; two of different lengths; two with the same x-coordinate, with y-sequences and with empty
ones. -/
theorem witness_RecoverRejectsMalformedShares :
    [Share.mk 0x01 [0x66]].length < 2 ∧
    (∃ p ∈ [Share.mk 0x01 [0x66], Share.mk 0x02 []], ∃ q ∈ [Share.mk 0x01 [0x66], Share.mk 0x02 []],
      p.y.length ≠ q.y.length) ∧
    (∃ l, ∀ p ∈ [Share.mk 0x01 [0x66], Share.mk 0x01 [0x67]], p.y.length = l) ∧
    ¬ ([Share.mk 0x01 [0x66], Share.mk 0x01 [0x67]].map Share.x).Nodup ∧
    (∃ l, ∀ p ∈ [Share.mk 0x01 [], Share.mk 0x01 []], p.y.length = l) ∧
    ¬ ([Share.mk 0x01 [], Share.mk 0x01 []].map Share.x).Nodup := by
  refine ⟨by decide, by decide, ⟨1, by decide⟩, by decide, ⟨0, by decide⟩, by decide⟩

/-- Under `POLY = 0x11D`, the scenario of 95_test_vectors.md section 1.1 with `c1 = 0xCD`: the shares at x = 3 and 2, in that
order. -/
theorem witness_SharesRecoverTheSecret :
    (match generate [0xAB] 2 3 (fun _ _ => 0xCD) .reset with
      | .ok (shares, _) => shares == [⟨0x01, [0x66]⟩, ⟨0x02, [0x2C]⟩, ⟨0x03, [0xE1]⟩]
      | .error _        => false) = true ∧
    [Share.mk 0x03 [0xE1], Share.mk 0x02 [0x2C]].Subperm
      [⟨0x01, [0x66]⟩, ⟨0x02, [0x2C]⟩, ⟨0x03, [0xE1]⟩] := by
  decide +kernel

end Sys2Proof.Tests
end

section
/-! PROOFS. The commands under any parameters, an equation for each case of each command that tests or
computes something: the condition raised, or the unit function whose answer is the response. -/

namespace Sys2Proof.Machine

/-- A command that computes a byte responds with it. -/
theorem respondWith_of_ok {v : Except Fault Byte} {b : Byte} (h : v = .ok b) (s : State) :
    respondWith v s = .next (s.respond .ok b) := respondWith_eq_next.2 ⟨b, h, rfl⟩

section Equations

variable (F : FieldParams)

theorem execFor_mul (a b : Byte) (s : State) :
    execFor F (.mul a b) s = respondWith (gfMul F a b) s := rfl

theorem execFor_div_zero (a : Byte) (s : State) :
    execFor F (.div a 0x00#8) s = .next (s.raise .divisionByZero) := rfl

theorem execFor_div_of_ne_zero (a : Byte) {b : Byte} (hb : b ≠ 0x00#8) (s : State) :
    execFor F (.div a b) s = respondWith (gfDiv F a b) s :=
  if_neg (mt isZero_iff.1 hb)

theorem execFor_inv_zero (s : State) :
    execFor F (.inv 0x00#8) s = .next (s.raise .divisionByZero) := rfl

theorem execFor_inv_of_ne_zero {a : Byte} (ha : a ≠ 0x00#8) (s : State) :
    execFor F (.inv a) s = respondWith (gfInv F a) s :=
  if_neg (mt isZero_iff.1 ha)

theorem execFor_ppush_of_full (c : Byte) {s : State} (hs : 255 ≤ s.pcnt) :
    execFor F (.ppush c) s = .next (s.raise .invalidParameters) :=
  if_pos (coefficientsFull_iff.2 hs)

theorem execFor_ppush_of_lt (c : Byte) {s : State} (hs : s.pcnt < 255) :
    execFor F (.ppush c) s =
      .next ((s.pushCoefficient c).respond .ok (countByte (s.pushCoefficient c).pcnt)) :=
  if_neg (mt coefficientsFull_iff.1 (Nat.not_le.2 hs))

theorem execFor_peval_of_nil (x : Byte) {s : State} (hs : s.pcoef = []) :
    execFor F (.peval x) s = .next (s.raise .invalidParameters) :=
  if_pos (coefficientsEmpty_iff.2 hs)

theorem execFor_peval_of_ne_nil (x : Byte) {s : State} (hs : s.pcoef ≠ []) :
    execFor F (.peval x) s = respondWith (polyEval F s.pcoef x) s :=
  if_neg (mt coefficientsEmpty_iff.1 hs)

theorem execFor_lpush_of_full (x y : Byte) {s : State} (hs : 255 ≤ s.lcnt) :
    execFor F (.lpush x y) s = .next (s.raise .invalidParameters) :=
  if_pos (pointsFull_iff.2 hs)

theorem execFor_lpush_of_lt (x y : Byte) {s : State} (hs : s.lcnt < 255) :
    execFor F (.lpush x y) s =
      .next ((s.pushPoint x y).respond .ok (countByte (s.pushPoint x y).lcnt)) :=
  if_neg (mt pointsFull_iff.1 (Nat.not_le.2 hs))

theorem execFor_linterp_of_few {s : State} (hs : s.lcnt < 2) :
    execFor F .linterp s = .next (s.raise .inconsistentShares) :=
  if_pos (tooFewPoints_iff.2 hs)

theorem execFor_linterp_of_duplicate {s : State} (hs : 2 ≤ s.lcnt) (hd : ¬ distinctX s.points) :
    execFor F .linterp s = .next (s.raise .duplicateShare) :=
  (if_neg (mt tooFewPoints_iff.1 (Nat.not_lt.2 hs))).trans (if_pos (duplicatePoints_iff.2 hd))

theorem execFor_linterp_of_distinct {s : State} (hs : 2 ≤ s.lcnt) (hd : distinctX s.points) :
    execFor F .linterp s = respondWith (lagrange0 F s.points) s :=
  (if_neg (mt tooFewPoints_iff.1 (Nat.not_lt.2 hs))).trans
    (if_neg (mt duplicatePoints_iff.1 (not_not.2 hd)))

end Equations

end Sys2Proof.Machine
end

section
/-! PROOFS. Steps: the parametric machine at the default parameters, safety of every step, and what the
outcome of a command depends on. -/

namespace Sys2Proof.Machine

/-! ### The default machine -/

theorem exec_eq_execFor_config : exec = execFor Config.field :=
  funext fun i => funext fun s => exec_eq_execFor i s

theorem step_eq_stepFor_config : step = stepFor Config.field := by
  funext s
  rw [step, portStep, exec_eq_execFor_config, stepFor]

theorem core_eq_coreFor_config : core = coreFor Config.field := by
  rw [core, coreFor, step_eq_stepFor_config]

/-- Settles O51: each of the three is the parametric one at `Config.field`. -/
theorem defaultMachineIsTheParametricOne : Obligations.DefaultMachineIsTheParametricOne :=
  ⟨rfl, exec_eq_execFor, congrFun step_eq_stepFor_config, core_eq_coreFor_config⟩

/-! ### Safety -/

/-- A command that computes a byte answers a next state when the computation reads no missing entry. -/
theorem respondWith_isNext {v : Except Fault Byte} (hv : ∃ b, v = .ok b) (s : State) :
    ∃ t, respondWith v s = .next t :=
  let ⟨_, hb⟩ := hv
  ⟨_, respondWith_of_ok hb s⟩

/-- Under legal parameters every command answers a next state: each test that raises a condition rules
out the operands at which the arithmetic after it would read a missing entry. -/
theorem LegalParams.execFor_isNext {F : FieldParams} (h : LegalParams F) (i : Instr) (s : State) :
    ∃ t, execFor F i s = .next t := by
  cases i with
  | add a b => exact ⟨_, rfl⟩
  | sub a b => exact ⟨_, rfl⟩
  | mul a b => exact respondWith_isNext (h.gfMul_isOk a b) s
  | div a b =>
    by_cases hb : b = 0x00#8
    · exact ⟨_, hb ▸ execFor_div_zero F a s⟩
    · exact execFor_div_of_ne_zero F a hb s ▸ respondWith_isNext (h.gfDiv_isOk a hb) s
  | inv a =>
    by_cases ha : a = 0x00#8
    · exact ⟨_, ha ▸ execFor_inv_zero F s⟩
    · exact execFor_inv_of_ne_zero F ha s ▸ respondWith_isNext (h.gfInv_isOk ha) s
  | pclr => exact ⟨_, rfl⟩
  | ppush c =>
    rcases Nat.lt_or_ge s.pcnt 255 with hs | hs
    · exact ⟨_, execFor_ppush_of_lt F c hs⟩
    · exact ⟨_, execFor_ppush_of_full F c hs⟩
  | peval x =>
    by_cases hs : s.pcoef = []
    · exact ⟨_, execFor_peval_of_nil F x hs⟩
    · exact execFor_peval_of_ne_nil F x hs ▸ respondWith_isNext (h.polyEval_isOk s.pcoef x) s
  | lclr => exact ⟨_, rfl⟩
  | lpush x y =>
    rcases Nat.lt_or_ge s.lcnt 255 with hs | hs
    · exact ⟨_, execFor_lpush_of_lt F x y hs⟩
    · exact ⟨_, execFor_lpush_of_full F x y hs⟩
  | linterp =>
    rcases Nat.lt_or_ge s.lcnt 2 with hs | hs
    · exact ⟨_, execFor_linterp_of_few F hs⟩
    by_cases hd : distinctX s.points
    · exact execFor_linterp_of_distinct F hs hd ▸ respondWith_isNext (h.lagrange0_isOk hd) s
    · exact ⟨_, execFor_linterp_of_duplicate F hs hd⟩

theorem LegalParams.runWith_isNext {F : FieldParams} (h : LegalParams F) (w : CmdWord) (s : State) :
    ∃ t, runWith (execFor F) w s = .next t := by
  cases hw : decode w with
  | ok i => exact runWith_of_ok hw s ▸ h.execFor_isNext i s
  | error e => exact ⟨_, runWith_of_error hw s⟩

theorem LegalParams.stepFor_isNext {F : FieldParams} (h : LegalParams F) (s : State) :
    ∃ t, stepFor F s = .next t := by
  rw [stepFor]
  obtain ⟨-, hp⟩ | ⟨w, -, -, hp⟩ | ⟨-, -, -, hp⟩ | ⟨-, -, -, hp⟩ :=
    portStepWith_cases (execFor F) s.portIn s.sampled
  · exact ⟨_, hp⟩
  · exact hp ▸ h.runWith_isNext w s.sampled
  · exact ⟨_, hp⟩
  · exact ⟨_, hp⟩

/-- Settles O52: reset, acceptance and idling answer by definition, and a command by
`LegalParams.execFor_isNext`. -/
theorem stepIsSafeUnderAllParameters : Obligations.StepIsSafeUnderAllParameters :=
  fun _ h s => h.stepFor_isNext s

/-- Settles O12: the default parameters are legal. -/
theorem everyStepIsSafe : Obligations.EveryStepIsSafe := fun s => by
  rw [stepsSafely, step_eq_stepFor_config]
  exact config_legal.stepFor_isNext s

/-! ### What the outcome of a command depends on -/

/-- Two states hold the same coefficients and the same points. -/
structure SameBuffers (s s' : State) : Prop where
  pcoef  : s'.pcoef = s.pcoef
  points : s'.points = s.points

/-- Two outcomes are the same for the host: the same response and the same buffers, or the same stop. -/
inductive SameOutcome : Result → Result → Prop where
  | next {t t' : State} : t'.rsp = t.rsp → SameBuffers t t' → SameOutcome (.next t) (.next t')
  | fault (f : Fault) : SameOutcome (.fault f) (.fault f)

theorem SameOutcome.of_next {t : State} {o' : Result} (h : SameOutcome (.next t) o') :
    ∃ t', o' = .next t' ∧ t'.rsp = t.rsp ∧ t'.pcoef = t.pcoef ∧ t'.points = t.points := by
  cases h with
  | next hrsp hbuf => exact ⟨_, rfl, hrsp, hbuf.pcoef, hbuf.points⟩

theorem SameOutcome.ite {c : Prop} [Decidable c] {o o' u u' : Result} (ho : SameOutcome o o')
    (hu : SameOutcome u u') : SameOutcome (if c then o else u) (if c then o' else u') := by
  split
  · exact ho
  · exact hu

namespace SameBuffers

variable {s s' : State}

theorem respond (h : SameBuffers s s') (st : Status) (v : Byte) :
    SameOutcome (.next (s.respond st v)) (.next (s'.respond st v)) :=
  .next rfl ⟨h.pcoef, h.points⟩

theorem raise (h : SameBuffers s s') (c : Status) :
    SameOutcome (.next (s.raise c)) (.next (s'.raise c)) := h.respond c 0#8

theorem respondWith (h : SameBuffers s s') (v : Except Fault Byte) :
    SameOutcome (respondWith v s) (respondWith v s') := by
  cases v with
  | ok b => exact h.respond .ok b
  | error f => exact .fault f

theorem clearCoefficients (h : SameBuffers s s') :
    SameBuffers s.clearCoefficients s'.clearCoefficients := ⟨rfl, h.points⟩

theorem clearPoints (h : SameBuffers s s') : SameBuffers s.clearPoints s'.clearPoints :=
  ⟨h.pcoef, rfl⟩

theorem pushCoefficient (h : SameBuffers s s') (c : Byte) :
    SameBuffers (s.pushCoefficient c) (s'.pushCoefficient c) :=
  ⟨congrArg (· ++ [c]) h.pcoef, h.points⟩

theorem pushPoint (h : SameBuffers s s') (x y : Byte) :
    SameBuffers (s.pushPoint x y) (s'.pushPoint x y) :=
  ⟨h.pcoef, congrArg (· ++ [(⟨x, y⟩ : Point)]) h.points⟩

theorem pcnt (h : SameBuffers s s') : s'.pcnt = s.pcnt := congrArg List.length h.pcoef

theorem lcnt (h : SameBuffers s s') : s'.lcnt = s.lcnt := congrArg List.length h.points

theorem duplicatePoints (h : SameBuffers s s') : s'.duplicatePoints = s.duplicatePoints :=
  congrArg hasDuplicateX h.points

/-- A command reads nothing of the state but the buffers. -/
theorem execFor (h : SameBuffers s s') (F : FieldParams) (i : Instr) :
    SameOutcome (execFor F i s) (execFor F i s') := by
  cases i with
  | add a b => exact h.respond .ok (gfAdd a b)
  | sub a b => exact h.respond .ok (gfSub a b)
  | mul a b => exact h.respondWith (gfMul F a b)
  | div a b => exact .ite (h.raise _) (h.respondWith _)
  | inv a => exact .ite (h.raise _) (h.respondWith _)
  | pclr => exact h.clearCoefficients.respond .ok 0#8
  | ppush c =>
    simp only [Machine.execFor, execPpush, coefficientsFull_iff, h.pcnt, (h.pushCoefficient c).pcnt]
    exact .ite (h.raise _) ((h.pushCoefficient c).respond _ _)
  | peval x =>
    simp only [Machine.execFor, execPevalFor, coefficientsEmpty_iff, h.pcoef]
    exact .ite (h.raise _) (h.respondWith _)
  | lclr => exact h.clearPoints.respond .ok 0#8
  | lpush x y =>
    simp only [Machine.execFor, execLpush, pointsFull_iff, h.lcnt, (h.pushPoint x y).lcnt]
    exact .ite (h.raise _) ((h.pushPoint x y).respond _ _)
  | linterp =>
    simp only [Machine.execFor, execLinterpFor, tooFewPoints_iff, h.lcnt, h.duplicatePoints,
      h.points]
    exact .ite (h.raise _) (.ite (h.raise _) (h.respondWith _))

theorem runCommand (h : SameBuffers s s') (w : CmdWord) :
    SameOutcome (runCommand w s) (runCommand w s') := by
  cases hw : decode w with
  | ok i =>
    rw [runCommand_of_ok hw, runCommand_of_ok hw, exec_eq_execFor_config]
    exact h.execFor Config.field i
  | error e =>
    rw [runCommand_of_error hw, runCommand_of_error hw]
    exact h.raise _

end SameBuffers

/-- Settles O15: by `SameBuffers.runCommand`, since a next state has the same outcome only as a next
state. -/
theorem outcomeDependsOnBuffersAndWordOnly : Obligations.OutcomeDependsOnBuffersAndWordOnly := by
  intro w s s' t hpcoef hpoints ht
  have h := SameBuffers.runCommand ⟨hpcoef, hpoints⟩ w
  rw [ht] at h
  exact h.of_next

end Sys2Proof.Machine
end

section
/-! PROOFS. The reference product of R78: a commutative product with identity 0x01 that distributes over
exclusive-or, whatever `POLY` is, and equal to the table product under legal parameters. -/

namespace Sys2Proof.Machine

theorem mulRefLoop_succ (poly : BitVec 9) (b : Byte) (k : Nat) (r a : Byte) :
    mulRefLoop poly b (k + 1) r a =
      mulRefLoop poly b k (if b.getLsbD (7 - k) then r ^^^ a else r) (xtime poly a) := rfl

/-- An additive function that commutes with the shift-and-reduce step commutes with the loop of R78. -/
theorem map_mulRefLoop {poly : BitVec 9} {f : Byte → Byte}
    (hxor : ∀ u v, f (u ^^^ v) = f u ^^^ f v) (hxtime : ∀ u, f (xtime poly u) = xtime poly (f u))
    (b : Byte) (k : Nat) (r a : Byte) :
    f (mulRefLoop poly b k r a) = mulRefLoop poly b k (f r) (f a) := by
  induction k generalizing r a with
  | zero => rfl
  | succ k ih => rw [mulRefLoop_succ, mulRefLoop_succ, ih, hxtime, apply_ite f, hxor]

/-- An additive function that commutes with the shift-and-reduce step is linear for the product. -/
theorem map_mulRef {poly : BitVec 9} {f : Byte → Byte}
    (hxor : ∀ u v, f (u ^^^ v) = f u ^^^ f v) (hxtime : ∀ u, f (xtime poly u) = xtime poly (f u))
    (a b : Byte) : f (mulRef poly a b) = mulRef poly (f a) b := by
  have hzero : f 0#8 = 0#8 := by simpa using hxor 0#8 0#8
  rw [mulRef, map_mulRefLoop hxor hxtime, hzero, mulRef]

theorem xtime_mulRef (poly : BitVec 9) (a b : Byte) :
    xtime poly (mulRef poly a b) = mulRef poly (xtime poly a) b :=
  map_mulRef (xtime_xor poly) (fun _ => rfl) a b

theorem mulRef_right_comm (poly : BitVec 9) (a b c : Byte) :
    mulRef poly (mulRef poly a b) c = mulRef poly (mulRef poly a c) b :=
  map_mulRef (fun u v => mulRef_xor_left poly u v c)
    (fun u => (xtime_mulRef poly u c).symm) a b

/-- A round of the loop of R78, bit by bit. -/
theorem getLsbD_ite_xor (p : Bool) (r a : Byte) (i : Nat) :
    (if p then r ^^^ a else r).getLsbD i = (r.getLsbD i ^^ (p && a.getLsbD i)) := by
  cases p <;> simp

/-- Multiplied by 0x01, the eight powers of `t` that the loop of R78 adds up are the single bits. -/
@[simp] theorem one_mulRef (poly : BitVec 9) (b : Byte) : mulRef poly 0x01#8 b = b := by
  refine BitVec.eq_of_getLsbD_eq fun i hi => ?_
  simp only [mulRef, mulRefLoop,
    show xtime poly 0x01#8 = 0x02#8 from rfl, show xtime poly 0x02#8 = 0x04#8 from rfl,
    show xtime poly 0x04#8 = 0x08#8 from rfl, show xtime poly 0x08#8 = 0x10#8 from rfl,
    show xtime poly 0x10#8 = 0x20#8 from rfl, show xtime poly 0x20#8 = 0x40#8 from rfl,
    show xtime poly 0x40#8 = 0x80#8 from rfl, getLsbD_ite_xor]
  interval_cases i <;> simp

theorem mulRef_comm (poly : BitVec 9) (a b : Byte) : mulRef poly a b = mulRef poly b a := by
  have h := mulRef_right_comm poly 0x01#8 a b
  rwa [one_mulRef, one_mulRef] at h

@[simp] theorem mulRef_one (poly : BitVec 9) (a : Byte) : mulRef poly a 0x01#8 = a := by
  rw [mulRef_comm, one_mulRef]

theorem mulRef_assoc (poly : BitVec 9) (a b c : Byte) :
    mulRef poly (mulRef poly a b) c = mulRef poly a (mulRef poly b c) := by
  rw [mulRef_comm poly a b, mulRef_right_comm, mulRef_comm poly a]

theorem mulRef_xor_right (poly : BitVec 9) (a b b' : Byte) :
    mulRef poly a (b ^^^ b') = mulRef poly a b ^^^ mulRef poly a b' := by
  simp only [mulRef_comm poly a, mulRef_xor_left]

@[simp] theorem zero_mulRef (poly : BitVec 9) (b : Byte) : mulRef poly 0#8 b = 0#8 := by
  simpa using mulRef_xor_left poly 0#8 0#8 b

@[simp] theorem mulRef_zero (poly : BitVec 9) (a : Byte) : mulRef poly a 0#8 = 0#8 := by
  rw [mulRef_comm, zero_mulRef]

theorem mulRef_two (poly : BitVec 9) (a : Byte) : mulRef poly a 0x02#8 = xtime poly a := by
  have h := xtime_mulRef poly 0x01#8 a
  rw [one_mulRef] at h
  rw [h, mulRef_comm]
  rfl

/-! ### Powers of `GEN` and the tables -/

/-- The two ways of R15 to multiply by `GEN` agree. -/
theorem timesGen_eq_mulRef (F : FieldParams) (v : Byte) :
    timesGen F v = mulRef F.poly v F.gen := by
  unfold timesGen
  split
  · next hgen => rw [hgen, mulRef_two]
  · rfl

theorem mulRef_powGen_left (F : FieldParams) (n : Nat) (b : Byte) :
    mulRef F.poly (powGen F n) b = (timesGen F)^[n] b := by
  induction n with
  | zero => exact one_mulRef F.poly b
  | succ n ih =>
    rw [Function.iterate_succ_apply', ← ih, timesGen_eq_mulRef, powGen, timesGen_eq_mulRef,
      mulRef_right_comm]

theorem mulRef_powGen (F : FieldParams) (n m : Nat) :
    mulRef F.poly (powGen F n) (powGen F m) = powGen F (n + m) := by
  rw [mulRef_powGen_left, iterate_timesGen_powGen]

/-- R78: the table product is the product of polynomials over GF(2) modulo `POLY`. -/
theorem LegalParams.gfMul_eq_mulRef {F : FieldParams} (h : LegalParams F) (a b : Byte) :
    gfMul F a b = .ok (mulRef F.poly a b) := by
  by_cases ha : a = 0#8
  · rw [ha, gfMul_zero_left, zero_mulRef]
  · obtain ⟨n, -, rfl⟩ := h.exists_powGen ha
    rw [h.gfMul_powGen_left, mulRef_powGen_left]

/-- R77, R80: the table inverse is the inverse for the reference product. -/
theorem LegalParams.exists_gfInv {F : FieldParams} (h : LegalParams F) {a : Byte} (ha : a ≠ 0#8) :
    ∃ v, gfInv F a = .ok v ∧ mulRef F.poly a v = 0x01#8 := by
  obtain ⟨n, hn, rfl⟩ := h.exists_powGen ha
  refine ⟨_, h.gfInv_powGen hn, ?_⟩
  rw [mulRef_powGen, Nat.add_sub_of_le hn.le, h.order]

/-- R81, R84: the table quotient, multiplied by the divisor, is the dividend. -/
theorem LegalParams.exists_gfDiv {F : FieldParams} (h : LegalParams F) (a : Byte) {b : Byte}
    (hb : b ≠ 0#8) : ∃ q, gfDiv F a b = .ok q ∧ mulRef F.poly q b = a := by
  by_cases ha : a = 0#8
  · exact ⟨_, ha ▸ gfDiv_zero_left F b, by rw [ha, zero_mulRef]⟩
  · obtain ⟨n, hn, rfl⟩ := h.exists_powGen ha
    obtain ⟨m, hm, rfl⟩ := h.exists_powGen hb
    refine ⟨_, h.gfDiv_powGen hn hm, ?_⟩
    rw [mulRef_powGen, h.powGen_inj, divIndex_add_mod]

end Sys2Proof.Machine
end

section
/-! PROOFS. Under legal parameters the bytes are a field (R77), and Horner's loop (R90) and the Lagrange
loops (R100) compute in it the value of a polynomial and of the interpolating polynomial. -/

namespace Sys2Proof.Machine

open Polynomial

/-! ### Horner's method -/

theorem polySumFrom_succ (poly : BitVec 9) (x : Byte) (n : Nat) (cs : List Byte) :
    polySumFrom poly x (n + 1) cs = mulRef poly (polySumFrom poly x n cs) x := by
  induction cs generalizing n with
  | nil => exact (zero_mulRef poly x).symm
  | cons c cs ih => rw [polySumFrom, polySumFrom, ih, powRef, mulRef_xor_left, mulRef_assoc]

theorem polySum_nil (poly : BitVec 9) (x : Byte) : polySum poly [] x = 0#8 := rfl

/-- One step of Horner's method. -/
theorem polySum_cons (poly : BitVec 9) (c : Byte) (cs : List Byte) (x : Byte) :
    polySum poly (c :: cs) x = mulRef poly (polySum poly cs x) x ^^^ c := by
  rw [polySum, polySumFrom, powRef, mulRef_one, polySumFrom_succ, BitVec.xor_comm, polySum]

theorem LegalParams.hornerLoop_append {F : FieldParams} (h : LegalParams F) (x c : Byte)
    (l : List Byte) (acc : Byte) :
    hornerLoop F x (l ++ [c]) acc =
      (hornerLoop F x l acc).map fun v => mulRef F.poly v x ^^^ c := by
  induction l generalizing acc with
  | nil => exact hornerLoop_cons (h.gfMul_eq_mulRef acc x)
  | cons d l ih =>
    rw [List.cons_append, hornerLoop_cons (h.gfMul_eq_mulRef acc x), ih,
      hornerLoop_cons (h.gfMul_eq_mulRef acc x)]

/-- R91: Horner's method gives the field sum. -/
theorem LegalParams.polyEval_eq_polySum {F : FieldParams} (h : LegalParams F) (c : List Byte)
    (x : Byte) : polyEval F c x = .ok (polySum F.poly c x) := by
  induction c with
  | nil => rfl
  | cons c cs ih =>
    rw [polyEval] at ih
    rw [polyEval, List.reverse_cons, h.hornerLoop_append, ih, polySum_cons]
    rfl

/-! ### The field of the bytes -/

/-- The bytes as a ring: addition is exclusive-or, multiplication the reference product. -/
def FieldByte (_ : BitVec 9) : Type := Byte

/-- R73 and R77, but for the inverses, which need legal parameters. -/
@[reducible] def fieldByteRing (poly : BitVec 9) : CommRing (FieldByte poly) :=
  letI : Add (FieldByte poly) := ⟨BitVec.xor⟩
  letI : Mul (FieldByte poly) := ⟨mulRef poly⟩
  letI : Neg (FieldByte poly) := ⟨id⟩
  letI : Zero (FieldByte poly) := ⟨0x00#8⟩
  letI : One (FieldByte poly) := ⟨0x01#8⟩
  .ofMinimalAxioms
    (add_assoc := BitVec.xor_assoc)
    (zero_add := fun _ => BitVec.zero_xor)
    (neg_add_cancel := fun _ => BitVec.xor_self)
    (mul_assoc := mulRef_assoc poly)
    (mul_comm := mulRef_comm poly)
    (one_mul := one_mulRef poly)
    (left_distrib := mulRef_xor_right poly)

theorem LegalParams.fieldByte_isField {F : FieldParams} (h : LegalParams F) :
    @IsField (FieldByte F.poly) (fieldByteRing F.poly).toSemiring :=
  letI := fieldByteRing F.poly
  { exists_pair_ne := ⟨(0 : FieldByte F.poly), 1, show (0x00#8 : Byte) ≠ 0x01#8 by decide⟩
    mul_comm := mul_comm
    mul_inv_cancel := fun ha =>
      let ⟨v, _, hv⟩ := h.exists_gfInv ha
      ⟨v, hv⟩ }

/-- The bytes, under the modulus `poly`, read as the elements of a field `K`. -/
structure FieldReading (poly : BitVec 9) (K : Type) [Field K] where
  /-- The element a byte stands for. -/
  val : Byte → K
  injective : Function.Injective val
  zero : val 0#8 = 0
  one : val 0x01#8 = 1
  xor (a b : Byte) : val (a ^^^ b) = val a + val b
  mulRef (a b : Byte) : val (mulRef poly a b) = val a * val b

/-- R77: under legal parameters the bytes are a field. -/
theorem LegalParams.exists_fieldReading {F : FieldParams} (h : LegalParams F) :
    ∃ (K : Type) (_ : Field K), Nonempty (FieldReading F.poly K) :=
  letI := fieldByteRing F.poly
  letI := h.fieldByte_isField.toField
  ⟨FieldByte F.poly, inferInstance, ⟨{
    val := fun b => b
    injective := fun _ _ e => e
    zero := rfl
    one := rfl
    xor := fun _ _ => rfl
    mulRef := fun _ _ => rfl }⟩⟩

namespace FieldReading

variable {K : Type} [Field K] {F : FieldParams}

theorem gfAdd {poly : BitVec 9} (e : FieldReading poly K) (a b : Byte) :
    e.val (gfAdd a b) = e.val a + e.val b := e.xor a b

/-- Subtraction is addition (R71), since a byte is its own negative. -/
theorem gfSub {poly : BitVec 9} (e : FieldReading poly K) (a b : Byte) :
    e.val (gfSub a b) = e.val a - e.val b := by
  have hself : e.val b + e.val b = 0 := by rw [← e.xor, BitVec.xor_self, e.zero]
  rw [Machine.gfSub, e.gfAdd, sub_eq_add_neg, ← eq_neg_of_add_eq_zero_left hself]

theorem val_ne_zero {poly : BitVec 9} (e : FieldReading poly K) {a : Byte} (ha : a ≠ 0#8) :
    e.val a ≠ 0 := fun h => ha (e.injective (h.trans e.zero.symm))

theorem exists_gfDiv (e : FieldReading F.poly K) (h : LegalParams F) (a : Byte) {b : Byte}
    (hb : b ≠ 0#8) : ∃ q, gfDiv F a b = .ok q ∧ e.val q = e.val a / e.val b := by
  obtain ⟨q, hq, hqb⟩ := h.exists_gfDiv a hb
  exact ⟨q, hq, eq_div_of_mul_eq (e.val_ne_zero hb) (by rw [← e.mulRef, hqb])⟩

/-! ### Polynomials -/

/-- The polynomial with these coefficients, index 0 the constant term. -/
noncomputable def polynomial {poly : BitVec 9} (e : FieldReading poly K) : List Byte → K[X]
  | []      => 0
  | c :: cs => polynomial e cs * X + C (e.val c)

theorem eval_polynomial {poly : BitVec 9} (e : FieldReading poly K) (c : List Byte) (x : Byte) :
    (e.polynomial c).eval (e.val x) = e.val (polySum poly c x) := by
  induction c with
  | nil => rw [polynomial, eval_zero, polySum_nil, e.zero]
  | cons c cs ih =>
    rw [polynomial, eval_add, eval_mul_X, eval_C, ih, polySum_cons, e.xor, e.mulRef]

theorem degree_polynomial_lt {poly : BitVec 9} (e : FieldReading poly K) (c : List Byte) :
    (e.polynomial c).degree < c.length := by
  induction c with
  | nil => simp [polynomial]
  | cons c cs ih =>
    have hmul : (e.polynomial cs * X).degree < (cs.length : WithBot ℕ) + 1 := by
      rw [degree_mul_X]
      exact WithBot.add_lt_add_right WithBot.one_ne_bot ih
    have hconst : (C (e.val c)).degree < (cs.length : WithBot ℕ) + 1 :=
      lt_of_le_of_lt degree_C_le (by exact_mod_cast cs.length.succ_pos)
    rw [polynomial, List.length_cons, Nat.cast_add_one]
    exact lt_of_le_of_lt (degree_add_le _ _) (max_lt hmul hconst)

theorem eval_zero_polynomial_cons {poly : BitVec 9} (e : FieldReading poly K) (c : Byte)
    (cs : List Byte) : (e.polynomial (c :: cs)).eval 0 = e.val c := by
  simp [polynomial]

/-! ### The interpolator -/

/-- The factor of R100 that the weight of the point at `y` takes from the point at `x`. -/
theorem eval_zero_basisDivisor (x y : K) :
    (Lagrange.basisDivisor y x).eval 0 = x / (x - y) := by
  rw [Lagrange.basisDivisor, eval_mul, eval_C, eval_sub, eval_X, eval_C, zero_sub, mul_neg,
    ← neg_mul, neg_inv, neg_sub, mul_comm, div_eq_mul_inv]

/-- The inner loop of R100 multiplies the factors of all the points but the one at `xj`. -/
theorem exists_weightLoop (e : FieldReading F.poly K) (h : LegalParams F) (j : Nat) (xj : Byte)
    (ps : List Point) (i : Nat) (w : Byte)
    (hj : ∀ k p, ps[k]? = some p → (i + k = j ↔ p.x = xj)) :
    ∃ v, weightLoop F j xj i ps w = .ok v ∧
      e.val v = e.val w * (((ps.map Point.x).filter (· ≠ xj)).map fun x =>
        (Lagrange.basisDivisor (e.val xj) (e.val x)).eval 0).prod := by
  induction ps generalizing i w with
  | nil => exact ⟨w, rfl, by simp⟩
  | cons p ps ih =>
    have rest : ∀ k q, ps[k]? = some q → (i + 1 + k = j ↔ q.x = xj) := fun k q hq => by
      rw [← hj (k + 1) q (by simpa using hq), Nat.add_assoc, Nat.add_comm 1]
    by_cases hx : p.x = xj
    · obtain rfl : i = j := (hj 0 p rfl).2 hx
      obtain ⟨v, hv, hval⟩ := ih (i + 1) w rest
      exact ⟨v, weightLoop_self.trans hv, by simpa [hx] using hval⟩
    · have hij : i ≠ j := fun hij => hx ((hj 0 p rfl).1 hij)
      have hsub : Machine.gfSub p.x xj ≠ 0#8 := fun h0 => hx (gfSub_eq_zero_iff.1 h0)
      obtain ⟨q, hq, hqval⟩ := e.exists_gfDiv h p.x hsub
      obtain ⟨v, hv, hval⟩ := ih (i + 1) (Machine.mulRef F.poly w q) rest
      refine ⟨v, (weightLoop_other hij hq (h.gfMul_eq_mulRef w q)).trans hv, ?_⟩
      rw [hval, e.mulRef, hqval, e.gfSub, List.map_cons,
        List.filter_cons_of_pos (by simpa using hx), List.map_cons, List.prod_cons,
        eval_zero_basisDivisor, mul_assoc]

/-- The weight of a point (R100) is the value at 0 of its Lagrange basis polynomial. -/
theorem exists_weight (e : FieldReading F.poly K) (h : LegalParams F) {pts : List Point}
    (hd : distinctX pts) {j : Nat} {p : Point} (hp : pts[j]? = some p) :
    ∃ v, weightLoop F j p.x 0 pts 0x01#8 = .ok v ∧
      e.val v = (Lagrange.basis (pts.map Point.x).toFinset e.val p.x).eval 0 := by
  have hj : ∀ k q, pts[k]? = some q → (0 + k = j ↔ q.x = p.x) := fun k q hq => by
    rw [Nat.zero_add]
    refine ⟨fun hkj => ?_, fun hx => not_imp_comm.1 (hd.ne hq hp) (not_not.2 hx)⟩
    subst hkj
    rw [Option.some.inj (hq.symm.trans hp)]
  obtain ⟨v, hv, hval⟩ := e.exists_weightLoop h j p.x pts 0 0x01#8 hj
  have hset : ((pts.map Point.x).filter (· ≠ p.x)).toFinset =
      (pts.map Point.x).toFinset.erase p.x := by
    ext x
    simp [and_comm]
  refine ⟨v, hv, ?_⟩
  rw [hval, e.one, one_mul, Lagrange.basis, eval_prod, ← hset, List.prod_toFinset _ (hd.filter _)]

/-- The outer loop of R100 adds up the weighted y-coordinates. -/
theorem exists_lagrangeLoop (e : FieldReading F.poly K) (h : LegalParams F) {pts : List Point}
    (hd : distinctX pts) (ps : List Point) (j : Nat) (acc : Byte)
    (hps : ∀ k p, ps[k]? = some p → pts[j + k]? = some p) :
    ∃ v, lagrangeLoop F pts j ps acc = .ok v ∧
      e.val v = e.val acc + (ps.map fun p =>
        e.val p.y * (Lagrange.basis (pts.map Point.x).toFinset e.val p.x).eval 0).sum := by
  induction ps generalizing j acc with
  | nil => exact ⟨acc, rfl, by simp⟩
  | cons p ps ih =>
    obtain ⟨w, hw, hwval⟩ := e.exists_weight h hd (hps 0 p rfl)
    obtain ⟨v, hv, hval⟩ := ih (j + 1) (Machine.gfAdd acc (Machine.mulRef F.poly p.y w))
      fun k q hq => by
        rw [Nat.add_assoc, Nat.add_comm 1]
        exact hps (k + 1) q (by simpa using hq)
    refine ⟨v, (lagrangeLoop_cons hw (h.gfMul_eq_mulRef p.y w)).trans hv, ?_⟩
    rw [hval, e.gfAdd, e.mulRef, hwval, List.map_cons, List.sum_cons, add_assoc]

/-- R100: `lagrange0` answers the value at 0 of the interpolating polynomial of the points, of which `r`
gives the y-coordinate to each x-coordinate. -/
theorem exists_lagrange0 (e : FieldReading F.poly K) (h : LegalParams F) {pts : List Point}
    (hd : distinctX pts) {r : Byte → K} (hr : ∀ p ∈ pts, e.val p.y = r p.x) :
    ∃ v, lagrange0 F pts = .ok v ∧
      e.val v = (Lagrange.interpolate (pts.map Point.x).toFinset e.val r).eval 0 := by
  obtain ⟨v, hv, hval⟩ := e.exists_lagrangeLoop h hd pts 0 0#8 fun k p hk => by simpa using hk
  refine ⟨v, hv, ?_⟩
  rw [hval, e.zero, zero_add, Lagrange.interpolate_apply, eval_finsetSum, List.sum_toFinset _ hd,
    List.map_map]
  refine congrArg List.sum (List.map_congr_left fun p hp => ?_)
  rw [hr p hp, Function.comp_apply, eval_mul, eval_C]

/-- R105: a polynomial with at most as many coefficients as there are points on it is the interpolating
polynomial of these points. -/
theorem polynomial_eq_interpolate {poly : BitVec 9} (e : FieldReading poly K) {c : List Byte}
    {pts : List Point} (hd : distinctX pts) (hc : c.length ≤ pts.length) :
    e.polynomial c = Lagrange.interpolate (pts.map Point.x).toFinset e.val
      fun x => (e.polynomial c).eval (e.val x) := by
  refine Lagrange.eq_interpolate e.injective.injOn (lt_of_lt_of_le (e.degree_polynomial_lt c) ?_)
  rw [List.toFinset_card_of_nodup hd, List.length_map]
  exact_mod_cast hc

end FieldReading

/-- R105: points on a polynomial with at most as many coefficients give its constant term. -/
theorem LegalParams.lagrange0_of_liesOn {F : FieldParams} (h : LegalParams F) {c : Byte}
    {cs : List Byte} {pts : List Point} (hd : distinctX pts) (hc : (c :: cs).length ≤ pts.length)
    (hon : liesOn F.poly (c :: cs) pts) : lagrange0 F pts = .ok c := by
  obtain ⟨K, _, ⟨e⟩⟩ := h.exists_fieldReading
  obtain ⟨v, hv, hval⟩ := e.exists_lagrange0 h hd
    (r := fun x => (e.polynomial (c :: cs)).eval (e.val x)) fun p hp => by
      rw [e.eval_polynomial, hon p hp]
  rw [← e.polynomial_eq_interpolate hd hc, e.eval_zero_polynomial_cons] at hval
  rw [hv, e.injective hval]

/-! ### The commands -/

/-- Settles O53: each command answers what its unit function computes, and that is known in terms of
`POLY` by R78, R84, R77, R91 and R105. -/
theorem fieldCommandsUnderAllParameters : Obligations.FieldCommandsUnderAllParameters := by
  intro F h s
  refine ⟨fun a b => ?mul, fun a b hb => ?div, fun a ha => ?inv, fun x hs => ?peval,
    fun c cs hs hd hc hon => ?linterp⟩
  case mul => rw [execFor_mul, respondWith_of_ok (h.gfMul_eq_mulRef a b)]
  case div =>
    obtain ⟨q, hq, hqb⟩ := h.exists_gfDiv a hb
    exact ⟨q, hqb, by rw [execFor_div_of_ne_zero F a hb, respondWith_of_ok hq]⟩
  case inv =>
    obtain ⟨v, hv, hav⟩ := h.exists_gfInv ha
    exact ⟨v, hav, by rw [execFor_inv_of_ne_zero F ha, respondWith_of_ok hv]⟩
  case peval =>
    have hne : s.pcoef ≠ [] := mt List.length_eq_zero_iff.2 hs
    rw [execFor_peval_of_ne_nil F x hne, respondWith_of_ok (h.polyEval_eq_polySum s.pcoef x)]
  case linterp =>
    rw [execFor_linterp_of_distinct F hs hd, respondWith_of_ok (h.lagrange0_of_liesOn hd hc hon)]

end Sys2Proof.Machine
end

section
/-! PROOFS. The state after reset, and the invariant of the block's states: kept by each operation of a
step, hence by every step. -/

namespace Sys2Proof.Machine

/-- Settles O11: by the definition of the state after reset. -/
theorem resetStateIsEmptyAndIdle : Obligations.ResetStateIsEmptyAndIdle := ⟨rfl, rfl, rfl, rfl, rfl⟩

/-- Settles O14: both buffers are empty and no response is presented. -/
theorem resetMeetsTheInvariant : Obligations.ResetMeetsTheInvariant where
  pcap := Nat.zero_le _
  lcap := Nat.zero_le _
  busy := fun _ => rfl
  legal := fun _ h => nomatch h

namespace State.Inv

variable {s : State}

/-- What the host drives is no part of the invariant. -/
theorem withInputs (h : s.Inv) (ports : List PortIn) : State.Inv { s with inputs := ports } :=
  ⟨h.pcap, h.lcap, h.busy, h.legal⟩

theorem applyReset (s : State) : s.applyReset.Inv := resetMeetsTheInvariant.withInputs s.inputs

theorem accept (h : s.Inv) (w : CmdWord) : (s.accept w).Inv :=
  ⟨h.pcap, h.lcap, fun _ => rfl, fun _ hr => nomatch hr⟩

theorem respond (h : s.Inv) {st : Status} {v : Byte} (hv : st ≠ .ok → v = 0x00#8) :
    (s.respond st v).Inv where
  pcap := h.pcap
  lcap := h.lcap
  busy := fun hbusy => nomatch hbusy
  legal := fun _ hr => ⟨st, v, (Option.some.inj hr).symm, hv⟩

theorem raise (h : s.Inv) (c : Status) : (s.raise c).Inv := h.respond fun _ => rfl

/-- No write of R26 makes a buffer longer than its capacity: a push needs a buffer that is not full. -/
theorem written (h : s.Inv) {u : State} (hu : Written s u) : u.Inv := by
  cases hu with
  | nothing => exact h
  | coefficientsCleared => exact ⟨Nat.zero_le _, h.lcap, h.busy, h.legal⟩
  | coefficientPushed c hlt =>
    exact ⟨(pushCoefficient_pcnt s c).trans_le hlt, h.lcap, h.busy, h.legal⟩
  | pointsCleared => exact ⟨h.pcap, Nat.zero_le _, h.busy, h.legal⟩
  | pointPushed x y hlt => exact ⟨h.pcap, (pushPoint_lcnt s x y).trans_le hlt, h.busy, h.legal⟩

variable {F : FieldParams} {t : State}

theorem execFor (h : s.Inv) {i : Instr} (ht : execFor F i s = .next t) : t.Inv := by
  obtain ⟨c, -, rfl⟩ | ⟨v, u, hu, rfl⟩ := execFor_next ht
  · exact h.raise c
  · exact (h.written hu).respond fun hne => absurd rfl hne

theorem runWith (h : s.Inv) {w : CmdWord} (ht : runWith (Machine.execFor F) w s = .next t) :
    t.Inv := by
  cases hw : decode w with
  | ok i => exact h.execFor ((runWith_of_ok hw s).symm.trans ht)
  | error e =>
    obtain rfl := Host.Outcome.next.inj ((runWith_of_error hw s).symm.trans ht)
    exact h.raise _

/-- Every step keeps the invariant, whatever the parameters. -/
theorem stepFor (h : s.Inv) (ht : stepFor F s = .next t) : t.Inv := by
  have hs : s.sampled.Inv := h.withInputs s.inputs.tail
  rw [Machine.stepFor] at ht
  obtain ⟨-, hp⟩ | ⟨w, -, -, hp⟩ | ⟨-, -, -, hp⟩ | ⟨-, -, -, hp⟩ :=
    portStepWith_cases (Machine.execFor F) s.portIn s.sampled <;> rw [hp] at ht
  · exact Host.Outcome.next.inj ht ▸ applyReset s.sampled
  · exact hs.runWith ht
  · exact Host.Outcome.next.inj ht ▸ hs.accept s.portIn.cmd
  · exact Host.Outcome.next.inj ht ▸ hs

end State.Inv

/-- Settles O13: by `State.Inv.stepFor` at the default parameters. -/
theorem stepKeepsTheInvariant : Obligations.StepKeepsTheInvariant := by
  intro s t h ht
  rw [step_eq_stepFor_config] at ht
  exact h.stepFor ht

end Sys2Proof.Machine
end

section
/-! PROOFS. Frames (R26): the commands that only answer, and the two groups of commands that own a
buffer each. -/

namespace Sys2Proof.Machine

/-! ### Commands that write no buffer -/

/-- The commands that only read the state: all but the clears and the pushes. -/
def WritesNoBuffer : Instr → Prop
  | .add _ _ | .sub _ _ | .mul _ _ | .div _ _ | .inv _ | .peval _ | .linterp => True
  | .pclr | .ppush _ | .lclr | .lpush _ _ => False

/-- A next state, if there is one, is `s` with a response. -/
def OnlyResponds (s : State) (o : Result) : Prop := ∀ t, o = .next t → ∃ st v, t = s.respond st v

namespace OnlyResponds

variable {s : State}

theorem respond (st : Status) (v : Byte) : OnlyResponds s (.next (s.respond st v)) :=
  fun _ ht => ⟨st, v, (Host.Outcome.next.inj ht).symm⟩

theorem raise (c : Status) : OnlyResponds s (.next (s.raise c)) := respond c 0x00#8

theorem respondWith (v : Except Fault Byte) : OnlyResponds s (respondWith v s) := fun _ ht =>
  let ⟨b, _, e⟩ := respondWith_eq_next.1 ht
  ⟨.ok, b, e⟩

theorem ite {c : Prop} [Decidable c] {o u : Result} (ho : OnlyResponds s o)
    (hu : OnlyResponds s u) : OnlyResponds s (if c then o else u) := by
  split
  · exact ho
  · exact hu

theorem execFor (F : FieldParams) {i : Instr} (hi : WritesNoBuffer i) (s : State) :
    OnlyResponds s (execFor F i s) := by
  cases i with
  | add a b => exact respond .ok (gfAdd a b)
  | sub a b => exact respond .ok (gfSub a b)
  | mul a b => exact respondWith (gfMul F a b)
  | div a b => exact ite (raise _) (respondWith _)
  | inv a => exact ite (raise _) (respondWith _)
  | peval x => exact ite (raise _) (respondWith _)
  | linterp => exact ite (raise _) (ite (raise _) (respondWith _))
  | pclr | ppush c | lclr | lpush x y => exact hi.elim

end OnlyResponds

/-- Settles O20: a response leaves the buffers and the inputs, and the block idle. -/
theorem readersLeaveTheBuffers : Obligations.ReadersLeaveTheBuffers := by
  intro i s t hi ht
  rw [exec_eq_execFor] at ht
  obtain ⟨st, v, rfl⟩ := OnlyResponds.execFor Config.field hi s t ht
  exact ⟨respond_pcoef .., respond_points .., respond_inputs .., respond_inProgress ..⟩

/-! ### Commands that leave the other group's buffer alone -/

/-- A command neither writes the points nor depends on them. -/
def IgnoresPoints (ex : State → Result) : Prop :=
  ∀ (s t : State) (pts : List Point), ex s = .next t →
    t.points = s.points ∧ ex { s with points := pts } = .next { t with points := pts }

/-- A command neither writes the coefficients nor depends on them. -/
def IgnoresCoefficients (ex : State → Result) : Prop :=
  ∀ (s t : State) (cs : List Byte), ex s = .next t →
    t.pcoef = s.pcoef ∧ ex { s with pcoef := cs } = .next { t with pcoef := cs }

section Groups

variable (F : FieldParams)

theorem ignoresPoints_pclr : IgnoresPoints (execFor F .pclr) := fun s t pts ht => by
  obtain rfl := Host.Outcome.next.inj ht
  exact ⟨rfl, rfl⟩

theorem ignoresPoints_ppush (c : Byte) : IgnoresPoints (execFor F (.ppush c)) :=
  fun s t pts ht => by
    rcases Nat.lt_or_ge s.pcnt 255 with hs | hs
    · obtain rfl := Host.Outcome.next.inj ((execFor_ppush_of_lt F c hs).symm.trans ht)
      exact ⟨rfl, execFor_ppush_of_lt F c (s := { s with points := pts }) hs⟩
    · obtain rfl := Host.Outcome.next.inj ((execFor_ppush_of_full F c hs).symm.trans ht)
      exact ⟨rfl, execFor_ppush_of_full F c (s := { s with points := pts }) hs⟩

theorem ignoresPoints_peval (x : Byte) : IgnoresPoints (execFor F (.peval x)) :=
  fun s t pts ht => by
    by_cases hs : s.pcoef = []
    · obtain rfl := Host.Outcome.next.inj ((execFor_peval_of_nil F x hs).symm.trans ht)
      exact ⟨rfl, execFor_peval_of_nil F x (s := { s with points := pts }) hs⟩
    · rw [execFor_peval_of_ne_nil F x hs] at ht
      obtain ⟨b, hb, rfl⟩ := respondWith_eq_next.1 ht
      exact ⟨rfl, (execFor_peval_of_ne_nil F x (s := { s with points := pts }) hs).trans
        (respondWith_of_ok hb _)⟩

theorem ignoresCoefficients_lclr : IgnoresCoefficients (execFor F .lclr) := fun s t cs ht => by
  obtain rfl := Host.Outcome.next.inj ht
  exact ⟨rfl, rfl⟩

theorem ignoresCoefficients_lpush (x y : Byte) : IgnoresCoefficients (execFor F (.lpush x y)) :=
  fun s t cs ht => by
    rcases Nat.lt_or_ge s.lcnt 255 with hs | hs
    · obtain rfl := Host.Outcome.next.inj ((execFor_lpush_of_lt F x y hs).symm.trans ht)
      exact ⟨rfl, execFor_lpush_of_lt F x y (s := { s with pcoef := cs }) hs⟩
    · obtain rfl := Host.Outcome.next.inj ((execFor_lpush_of_full F x y hs).symm.trans ht)
      exact ⟨rfl, execFor_lpush_of_full F x y (s := { s with pcoef := cs }) hs⟩

theorem ignoresCoefficients_linterp : IgnoresCoefficients (execFor F .linterp) :=
  fun s t cs ht => by
    rcases Nat.lt_or_ge s.lcnt 2 with hs | hs
    · obtain rfl := Host.Outcome.next.inj ((execFor_linterp_of_few F hs).symm.trans ht)
      exact ⟨rfl, execFor_linterp_of_few F (s := { s with pcoef := cs }) hs⟩
    by_cases hd : distinctX s.points
    · rw [execFor_linterp_of_distinct F hs hd] at ht
      obtain ⟨b, hb, rfl⟩ := respondWith_eq_next.1 ht
      exact ⟨rfl, (execFor_linterp_of_distinct F (s := { s with pcoef := cs }) hs hd).trans
        (respondWith_of_ok hb _)⟩
    · obtain rfl := Host.Outcome.next.inj ((execFor_linterp_of_duplicate F hs hd).symm.trans ht)
      exact ⟨rfl, execFor_linterp_of_duplicate F (s := { s with pcoef := cs }) hs hd⟩

end Groups

/-- Settles O21: command by command, at the default parameters. -/
theorem bufferGroupsAreIndependent : Obligations.BufferGroupsAreIndependent := by
  rw [Obligations.BufferGroupsAreIndependent, exec_eq_execFor_config]
  refine ⟨fun i s t pts hi => ?points, fun i s t cs hi => ?coefficients⟩
  case points =>
    cases i with
    | pclr => exact ignoresPoints_pclr _ s t pts
    | ppush c => exact ignoresPoints_ppush _ c s t pts
    | peval x => exact ignoresPoints_peval _ x s t pts
    | add a b | sub a b | mul a b | div a b | inv a | lclr | lpush x y | linterp => exact hi.elim
  case coefficients =>
    cases i with
    | lclr => exact ignoresCoefficients_lclr _ s t cs
    | lpush x y => exact ignoresCoefficients_lpush _ x y s t cs
    | linterp => exact ignoresCoefficients_linterp _ s t cs
    | add a b | sub a b | mul a b | div a b | inv a | pclr | ppush c | peval x => exact hi.elim

end Sys2Proof.Machine
end

section
/-! PROOFS. The tables `EXP` and `LOG` under legal parameters (R13, R14, R16), and R17: what the block
answers depends on `POLY`, not on the generator the tables are made from. -/

namespace Sys2Proof.Machine

/-! ### The tables -/

theorem powGen_one (F : FieldParams) : powGen F 1 = F.gen := by
  rw [powGen, timesGen_eq_mulRef, powGen, one_mulRef]

/-- Settles O23: every nonzero byte is one power of `GEN` below 255, 0x01 is power 0 and `GEN` power 1. -/
theorem logAndExpAreInverse : Obligations.LogAndExpAreInverse := by
  intro F h
  refine ⟨fun v hv => ?_, h.readLog_powGen (j := 0) (by decide), ?_, ?_, readLog_zero F⟩
  · obtain ⟨i, hi, hlog, rfl⟩ := h.readLog_of_ne_zero hv
    refine ⟨i, Nat.le_of_lt_succ hi, hlog, readExp_of_le F hi.le, fun j hj hexp => ?_⟩
    rw [readExp_of_le F (Nat.le_succ_of_le hj)] at hexp
    exact h.distinct j (Nat.lt_succ_of_le hj) i hi (Except.ok.inj hexp)
  · have hgen := h.readLog_powGen (j := 1) (by decide)
    rwa [powGen_one] at hgen
  · rw [readExp_of_le F le_rfl, h.order]

/-! ### Products, quotients and inverses -/

/-- A nonzero factor cancels, for it has an inverse. -/
theorem LegalParams.mulRef_right_cancel {F : FieldParams} (h : LegalParams F) {a a' b : Byte}
    (hb : b ≠ 0x00#8) (heq : mulRef F.poly a b = mulRef F.poly a' b) : a = a' := by
  obtain ⟨v, -, hv⟩ := h.exists_gfInv hb
  have hmul := congrArg (mulRef F.poly · v) heq
  simpa only [mulRef_assoc, hv, mulRef_one] using hmul

section SamePoly

variable {F F' : FieldParams} (h : LegalParams F) (h' : LegalParams F') (hpoly : F.poly = F'.poly)

include h h' hpoly

theorem gfMul_eq_of_poly_eq (a b : Byte) : gfMul F a b = gfMul F' a b := by
  rw [h.gfMul_eq_mulRef, h'.gfMul_eq_mulRef, hpoly]

/-- Both quotients, multiplied by the divisor, are the dividend. -/
theorem gfDiv_eq_of_poly_eq (a : Byte) {b : Byte} (hb : b ≠ 0x00#8) :
    gfDiv F a b = gfDiv F' a b := by
  obtain ⟨q, hq, hqb⟩ := h.exists_gfDiv a hb
  obtain ⟨q', hq', hqb'⟩ := h'.exists_gfDiv a hb
  rw [hq, hq', h.mulRef_right_cancel hb (hqb.trans (hpoly ▸ hqb').symm)]

/-- The product of the byte with either inverse is 0x01. -/
theorem gfInv_eq_of_poly_eq {a : Byte} (ha : a ≠ 0x00#8) : gfInv F a = gfInv F' a := by
  obtain ⟨v, hv, hav⟩ := h.exists_gfInv ha
  obtain ⟨v', hv', hav'⟩ := h'.exists_gfInv ha
  rw [mulRef_comm] at hav hav'
  rw [hv, hv', h.mulRef_right_cancel ha (hav.trans (hpoly ▸ hav').symm)]

theorem polyEval_eq_of_poly_eq (c : List Byte) (x : Byte) : polyEval F c x = polyEval F' c x := by
  rw [h.polyEval_eq_polySum, h'.polyEval_eq_polySum, hpoly]

/-- Both interpolators compute the same sum in the field of the bytes. -/
theorem lagrange0_eq_of_poly_eq {pts : List Point} (hd : distinctX pts) :
    lagrange0 F pts = lagrange0 F' pts := by
  obtain ⟨poly, gen⟩ := F
  obtain ⟨poly', gen'⟩ := F'
  obtain rfl : poly = poly' := hpoly
  obtain ⟨K, _, ⟨e⟩⟩ := h.exists_fieldReading
  have all : ∀ k p, pts[k]? = some p → pts[0 + k]? = some p := fun k p hk => by simpa using hk
  obtain ⟨v, hv, hval⟩ := e.exists_lagrangeLoop h hd pts 0 0x00#8 all
  obtain ⟨v', hv', hval'⟩ :=
    FieldReading.exists_lagrangeLoop (F := ⟨poly, gen'⟩) e h' hd pts 0 0x00#8 all
  rw [lagrange0, lagrange0, hv, hv', e.injective (hval.trans hval'.symm)]

/-! ### Commands and steps -/

/-- Each command answers through a unit function that does not depend on `GEN`; the tests that raise a
condition keep it where that function has its value. -/
theorem execFor_eq_of_poly_eq : execFor F = execFor F' := by
  funext i s
  cases i with
  | mul a b => rw [execFor_mul, execFor_mul, gfMul_eq_of_poly_eq h h' hpoly]
  | div a b =>
    by_cases hb : b = 0x00#8
    · rw [hb, execFor_div_zero, execFor_div_zero]
    · rw [execFor_div_of_ne_zero F a hb, execFor_div_of_ne_zero F' a hb,
        gfDiv_eq_of_poly_eq h h' hpoly a hb]
  | inv a =>
    by_cases ha : a = 0x00#8
    · rw [ha, execFor_inv_zero, execFor_inv_zero]
    · rw [execFor_inv_of_ne_zero F ha, execFor_inv_of_ne_zero F' ha,
        gfInv_eq_of_poly_eq h h' hpoly ha]
  | peval x => simp only [execFor, execPevalFor, polyEval_eq_of_poly_eq h h' hpoly]
  | linterp =>
    rcases Nat.lt_or_ge s.lcnt 2 with hs | hs
    · rw [execFor_linterp_of_few F hs, execFor_linterp_of_few F' hs]
    by_cases hd : distinctX s.points
    · rw [execFor_linterp_of_distinct F hs hd, execFor_linterp_of_distinct F' hs hd,
        lagrange0_eq_of_poly_eq h h' hpoly hd]
    · rw [execFor_linterp_of_duplicate F hs hd, execFor_linterp_of_duplicate F' hs hd]
  | add a b | sub a b | pclr | ppush c | lclr | lpush x y => rfl

theorem stepFor_eq_of_poly_eq : stepFor F = stepFor F' := by
  funext s
  rw [stepFor, stepFor, execFor_eq_of_poly_eq h h' hpoly]

end SamePoly

/-- Settles O27: products are the reference product, and quotients and inverses are determined by it. -/
theorem resultsDoNotDependOnTheGenerator : Obligations.ResultsDoNotDependOnTheGenerator :=
  fun _ _ h h' hpoly a _ => ⟨gfMul_eq_of_poly_eq h h' hpoly a _,
    fun hb => ⟨gfDiv_eq_of_poly_eq h h' hpoly a hb, gfInv_eq_of_poly_eq h h' hpoly hb⟩⟩

/-- Settles O54: the unit functions of the commands depend on `POLY` alone. -/
theorem commandsDoNotDependOnTheGenerator : Obligations.CommandsDoNotDependOnTheGenerator :=
  fun _ _ h h' hpoly => ⟨congrFun₂ (execFor_eq_of_poly_eq h h' hpoly),
    congrFun (stepFor_eq_of_poly_eq h h' hpoly)⟩

end Sys2Proof.Machine
end

section
/-! PROOFS. The evaluator's buffer as the host fills it through the ports (R42): what `PCLR` and `PPUSH`
issued to an idle block answer and leave, and a row of pushes. -/

namespace Sys2Proof.Machine

/-- The word of a command decodes to it (R56); the pseudo-command has the word of another (R62). -/
theorem decode_encode {i : Instr} (h : i.wellFormed = true) : decode (encode i) = .ok i := by
  cases i with
  | sub a b => exact nomatch h
  | pclr | lclr | linterp => rfl
  | add a b | mul a b | div a b | inv a | ppush c | peval x | lpush x y => simp [encode, decode]

/-- R92 at the ports. -/
theorem issue_pclr {s : State} (h : s.inProgress = none) :
    ∃ t, issue .pclr s = .ok (0x00#8, t) ∧
      t.pcoef = [] ∧ t.points = s.points ∧ t.inProgress = none :=
  ⟨_, issue_of_ok h (decode_encode rfl) rfl, rfl, rfl, rfl⟩

/-- R93 at the ports, with the buffer not full. -/
theorem issue_ppush {s : State} (h : s.inProgress = none) (c : Byte) (hs : s.pcnt < 255) :
    ∃ t, issue (.ppush c) s = .ok (countByte (s.pcnt + 1), t) ∧
      t.pcoef = s.pcoef ++ [c] ∧ t.points = s.points ∧ t.inProgress = none := by
  have hexec := execFor_ppush_of_lt Config.field c (s := accepted (encode (.ppush c)) s) hs
  rw [← exec_eq_execFor, pushCoefficient_pcnt] at hexec
  exact ⟨_, issue_of_ok h (decode_encode rfl) hexec, rfl, rfl, rfl⟩

/-- Pushes for which there is room append their coefficients and answer the counts that follow. -/
theorem issueAll_ppush {s : State} (h : s.inProgress = none) (cs : List Byte)
    (hs : s.pcnt + cs.length ≤ 255) :
    ∃ t, issueAll (cs.map .ppush) s =
        .ok ((List.range' (s.pcnt + 1) cs.length).map countByte, t) ∧
      t.pcoef = s.pcoef ++ cs ∧ t.points = s.points ∧ t.inProgress = none := by
  induction cs generalizing s with
  | nil => exact ⟨s, rfl, (List.append_nil _).symm, rfl, h⟩
  | cons c cs ih =>
    rw [List.length_cons] at hs
    obtain ⟨t, hissue, hpcoef, hpoints, hidle⟩ := issue_ppush h c (by omega)
    have hpcnt : t.pcnt = s.pcnt + 1 := by simp [pcnt_eq, hpcoef]
    obtain ⟨u, hrest, hpcoef', hpoints', hidle'⟩ := ih hidle (by omega)
    rw [hpcnt] at hrest
    exact ⟨u, issueAll_cons_of_ok hissue hrest,
      by rw [hpcoef', hpcoef, List.append_assoc, List.singleton_append],
      hpoints'.trans hpoints, hidle'⟩

/-- Settles O39: after the `PCLR` the counts start from 0, and `issueAll_ppush` does the rest. -/
theorem pushedCoefficientsAreHeldInOrder : Obligations.PushedCoefficientsAreHeldInOrder := by
  intro s cs h hcs
  obtain ⟨t, hclear, hpcoef, hpoints, hidle⟩ := issue_pclr h
  have hpcnt : t.pcnt = 0 := by rw [pcnt_eq, hpcoef, List.length_nil]
  obtain ⟨u, hpush, hpcoef', hpoints', hidle'⟩ := issueAll_ppush hidle cs (by omega)
  rw [hpcnt] at hpush
  refine ⟨u, ?_, by rw [hpcoef', hpcoef, List.nil_append], hpoints'.trans hpoints, hidle'⟩
  rw [List.range_eq_range', List.range'_succ]
  exact issueAll_cons_of_ok hclear hpush

end Sys2Proof.Machine
end

section
/-! PROOFS. Command words (spec/30_encoding.md section 3): the decoder and the encoder are inverse (R57),
the decoder agrees with the opcode map (R56, R64), and which words are illegal and how many (R58). -/

namespace Sys2Proof

/-! ### The decoder and the encoder -/

/-- A word in three fields, the fields on the other side. -/
theorem mkCmd_eq_iff {op : BitVec 4} {a b : Byte} {w : CmdWord} :
    mkCmd op a b = w ↔ cmdOp w = op ∧ cmdA w = a ∧ cmdB w = b := by
  rw [eq_comm, cmdWord_ext_iff, cmdOp_mkCmd, cmdA_mkCmd, cmdB_mkCmd]

/-- What the decoder answers is the one well-formed command that has the word. -/
theorem encode_of_decode_eq_ok {w : CmdWord} {i : Instr} (h : decode w = .ok i) :
    encode i = w ∧ i.wellFormed = true := by
  rw [decode] at h
  split at h
  case h_1 | h_2 | h_3 | h_9 =>
    next hop =>
    cases h
    exact ⟨mkCmd_eq_iff.2 ⟨BitVec.eq_of_toNat_eq hop, rfl, rfl⟩, rfl⟩
  case h_4 | h_6 | h_7 =>
    next hop =>
    obtain ⟨hb, h⟩ | ⟨-, h⟩ := ite_eq_iff.1 h
    · cases h
      exact ⟨mkCmd_eq_iff.2 ⟨BitVec.eq_of_toNat_eq hop, rfl, hb⟩, rfl⟩
    · exact nomatch h
  case h_5 | h_8 | h_10 =>
    next hop =>
    obtain ⟨⟨ha, hb⟩, h⟩ | ⟨-, h⟩ := ite_eq_iff.1 h
    · cases h
      exact ⟨mkCmd_eq_iff.2 ⟨BitVec.eq_of_toNat_eq hop, ha, hb⟩, rfl⟩
    · exact nomatch h
  case h_11 => exact nomatch h

/-- Settles O1: `decode_encode` one way, `encode_of_decode_eq_ok` the other. -/
theorem legalWordsCorrespondToCommands : Obligations.LegalWordsCorrespondToCommands :=
  ⟨fun _ => Machine.decode_encode, fun _ _ => encode_of_decode_eq_ok⟩

/-- Settles O4: `SUB` and `ADD` share an encoding and a function of the adder. -/
theorem subHasTheWordOfAdd : Obligations.SubHasTheWordOfAdd := fun a b =>
  ⟨encode_expand (.sub a b), Machine.decode_encode (i := .add a b) rfl, fun _ => rfl⟩

/-- Settles O5: by evaluating the decoder on each word. -/
theorem listedWordsDecode : Obligations.ListedWordsDecode := ⟨rfl, rfl, rfl, rfl, rfl, rfl, rfl⟩

/-! ### The opcode map -/

/-- Every command's word selects the command's row (Laws/PerInstr.lean, all constructors at once). -/
theorem encode_selects_its_row (i : Instr) : Laws.EncodedWordSelectsRow.Statement i := by
  open Laws.EncodedWordSelectsRow in
  cases i with
  | add a b => exact add a b
  | mul a b => exact mul a b
  | div a b => exact div a b
  | inv a => exact inv a
  | pclr => exact pclr
  | ppush c => exact ppush c
  | peval x => exact peval x
  | lclr => exact lclr
  | lpush x y => exact lpush x y
  | linterp => exact linterp
  | sub a b => exact sub a b

theorem selectsRow_iff {w : CmdWord} {r : OpcodeRow} :
    selectsRow w r = true ↔ w &&& r.mask = r.bits := beq_iff_eq

/-- Every mask of the opcode map covers the opcode, so a word has the opcode of a row it selects. -/
theorem cmdOp_eq_of_selectsRow {w : CmdWord} {r : OpcodeRow} (hr : r ∈ opcodeMap)
    (h : selectsRow w r = true) : cmdOp w = cmdOp r.bits := by
  have hmask : ∀ r ∈ opcodeMap, cmdOp r.mask = BitVec.allOnes 4 := by decide
  have hop := ((and_mask_iff w r.mask r.bits).1 (selectsRow_iff.1 h)).1
  rwa [hmask r hr, BitVec.and_allOnes] at hop

/-- The rows of the opcode map have different opcodes, so no word selects two. -/
theorem row_eq_of_selectsRow {w : CmdWord} {r r' : OpcodeRow} (hr : r ∈ opcodeMap)
    (hr' : r' ∈ opcodeMap) (h : selectsRow w r = true) (h' : selectsRow w r' = true) : r' = r := by
  have hinj : ∀ r ∈ opcodeMap, ∀ r' ∈ opcodeMap, cmdOp r.bits = cmdOp r'.bits → r' = r := by decide
  exact hinj r hr r' hr' ((cmdOp_eq_of_selectsRow hr h).symm.trans (cmdOp_eq_of_selectsRow hr' h'))

/-- A word that selects a row is the word of a command: the row's, with the fields of the word. -/
theorem exists_encode_eq_of_selectsRow {w : CmdWord} {r : OpcodeRow} (hr : r ∈ opcodeMap)
    (h : selectsRow w r = true) : ∃ i : Instr, i.wellFormed = true ∧ encode i = w := by
  rw [selectsRow_iff] at h
  have two {op : BitVec 4} (h : w &&& 0xF0000#20 = mkCmd op 0#8 0#8) :
      mkCmd op (cmdA w) (cmdB w) = w := mkCmd_eq_iff.2 ⟨(and_mask_two w op).1 h, rfl, rfl⟩
  have one {op : BitVec 4} (h : w &&& 0xF00FF#20 = mkCmd op 0#8 0#8) :
      mkCmd op (cmdA w) 0#8 = w :=
    let ⟨hop, hb⟩ := (and_mask_one w op).1 h; mkCmd_eq_iff.2 ⟨hop, rfl, hb⟩
  have zero {op : BitVec 4} (h : w &&& 0xFFFFF#20 = mkCmd op 0#8 0#8) :
      mkCmd op 0#8 0#8 = w := mkCmd_eq_iff.2 ((and_mask_none w op).1 h)
  simp only [opcodeMap, List.mem_cons, List.not_mem_nil, or_false] at hr
  obtain rfl | rfl | rfl | rfl | rfl | rfl | rfl | rfl | rfl | rfl := hr
  · exact ⟨.add (cmdA w) (cmdB w), rfl, two h⟩
  · exact ⟨.mul (cmdA w) (cmdB w), rfl, two h⟩
  · exact ⟨.div (cmdA w) (cmdB w), rfl, two h⟩
  · exact ⟨.inv (cmdA w), rfl, one h⟩
  · exact ⟨.pclr, rfl, zero h⟩
  · exact ⟨.ppush (cmdA w), rfl, one h⟩
  · exact ⟨.peval (cmdA w), rfl, one h⟩
  · exact ⟨.lclr, rfl, zero h⟩
  · exact ⟨.lpush (cmdA w) (cmdB w), rfl, two h⟩
  · exact ⟨.linterp, rfl, zero h⟩

/-- Settles O2: a legal word is the word of a command, which selects its row and no other; an illegal one
selects none, since a word that selects a row is the word of a command. -/
theorem everyWordSelectsOneRowOrIsIllegal : Obligations.EveryWordSelectsOneRowOrIsIllegal := by
  intro w
  cases hw : decode w with
  | ok i =>
    obtain ⟨henc, hwf⟩ := encode_of_decode_eq_ok hw
    obtain ⟨r, hr, hmnemonic, hsel⟩ := encode_selects_its_row i
    rw [(wellFormed_iff_expand_eq i).1 hwf] at hmnemonic
    rw [henc, ← selectsRow_iff] at hsel
    exact .inl ⟨r, hr, hsel, fun r' hr' => row_eq_of_selectsRow hr hr' hsel,
      i, rfl, hmnemonic.symm, henc⟩
  | error e =>
    refine .inr ⟨fun r hr => Bool.eq_false_iff.2 fun hsel => ?_, e, rfl⟩
    obtain ⟨i, hwf, rfl⟩ := exists_encode_eq_of_selectsRow hr hsel
    exact nomatch (Machine.decode_encode hwf).symm.trans hw

/-! ### Illegal words -/

/-- The fields of an illegal word (R58). -/
def IllegalFields (op : BitVec 4) (a b : Byte) : Prop :=
  op = 0x0#4 ∨ 0xB#4 ≤ op ∨
    ((op = 0x4#4 ∨ op = 0x6#4 ∨ op = 0x7#4) ∧ b ≠ 0#8) ∨
    ((op = 0x5#4 ∨ op = 0x8#4 ∨ op = 0xA#4) ∧ (a ≠ 0#8 ∨ b ≠ 0#8))

/-- The decoder rejects exactly the words of R58: its arms with two operands, with one, with none, and the
arm of the reserved opcodes. -/
theorem exists_decode_eq_error_iff (w : CmdWord) :
    (∃ e, decode w = .error e) ↔ IllegalFields (cmdOp w) (cmdA w) (cmdB w) := by
  rw [decode, IllegalFields]
  split
  case h_1 | h_2 | h_3 | h_9 => exact iff_of_false (by simp) (by bv_omega)
  case h_4 | h_5 | h_6 | h_7 | h_8 | h_10 =>
    split
    · exact iff_of_false (by simp) (by bv_omega)
    · exact iff_of_true ⟨_, rfl⟩ (by bv_omega)
  case h_11 =>
    simp only [imp_false] at *
    exact iff_of_true ⟨_, rfl⟩ (by bv_omega)

/-- The operand fields that are legal beside an opcode (R56): both free, `b` zero, both zero, or none. -/
def legalOperands (op : BitVec 4) : Finset (Byte × Byte) :=
  if op = 0x1#4 ∨ op = 0x2#4 ∨ op = 0x3#4 ∨ op = 0x9#4 then Finset.univ ×ˢ Finset.univ
  else if op = 0x4#4 ∨ op = 0x6#4 ∨ op = 0x7#4 then Finset.univ ×ˢ {0#8}
  else if op = 0x5#4 ∨ op = 0x8#4 ∨ op = 0xA#4 then {0#8} ×ˢ {0#8}
  else ∅

theorem mem_legalOperands_iff {op : BitVec 4} {a b : Byte} :
    (a, b) ∈ legalOperands op ↔ ¬ IllegalFields op a b := by
  rw [legalOperands, IllegalFields]
  split_ifs
  · exact iff_of_true (by simp) (by bv_omega)
  · rw [Finset.mem_product, Finset.mem_singleton]
    exact ⟨by bv_omega, fun h => ⟨Finset.mem_univ _, by bv_omega⟩⟩
  · rw [Finset.mem_product, Finset.mem_singleton, Finset.mem_singleton]
    bv_omega
  · exact iff_of_false (Finset.notMem_empty _) (by bv_omega)

theorem isOk_decode_iff (w : CmdWord) :
    (decode w).isOk = true ↔ (cmdA w, cmdB w) ∈ legalOperands (cmdOp w) := by
  rw [mem_legalOperands_iff, ← exists_decode_eq_error_iff]
  cases decode w <;> simp [Except.isOk, Except.toBool]

@[simp] theorem fintypeCard_bitVec (n : Nat) : Fintype.card (BitVec n) = 2 ^ n := by
  rw [← FinEnum.card_eq_fintypeCard, FinEnum.card_bitVec]

theorem card_legalOperands (op : BitVec 4) : (legalOperands op).card =
    if op = 0x1#4 ∨ op = 0x2#4 ∨ op = 0x3#4 ∨ op = 0x9#4 then 65536
    else if op = 0x4#4 ∨ op = 0x6#4 ∨ op = 0x7#4 then 256
    else if op = 0x5#4 ∨ op = 0x8#4 ∨ op = 0xA#4 then 1
    else 0 := by
  rw [legalOperands]
  split_ifs <;> simp

/-- A command word is its opcode and its two operand fields (R54). -/
def cmdFields : CmdWord ≃ (_ : BitVec 4) × (Byte × Byte) where
  toFun w := ⟨cmdOp w, cmdA w, cmdB w⟩
  invFun f := mkCmd f.1 f.2.1 f.2.2
  left_inv := mkCmd_fields
  right_inv f := by simp

/-- A legal word is an opcode and operands legal beside it: four opcodes have 65,536 pairs of operands,
three have 256 and three have one. -/
theorem card_legal_words :
    (Finset.univ.filter fun w : CmdWord => (decode w).isOk = true).card = 262915 := by
  have hsum : ∑ op : BitVec 4, (legalOperands op).card = 262915 := by
    rw [Finset.sum_congr rfl fun op _ => card_legalOperands op]
    decide
  rw [← hsum, ← Finset.card_sigma]
  refine Finset.card_equiv cmdFields fun w => ?_
  rw [Finset.mem_filter, Finset.mem_sigma, isOk_decode_iff]
  exact and_congr_left fun _ => iff_of_true (Finset.mem_univ _) (Finset.mem_univ _)

/-- What a test does not hold of, counted from what it holds of. Over any type: on the command words
themselves the unifier would list the words. -/
theorem card_filter_eq_false {α : Type} [Fintype α] {p : α → Bool} {n m : Nat}
    (hn : (Finset.univ.filter fun x => p x = true).card = n) (hα : Fintype.card α = n + m) :
    (Finset.univ.filter fun x => p x = false).card = m := by
  have hsum := Finset.card_filter_add_card_filter_not (s := Finset.univ) (fun x => p x = true)
  simp only [Bool.not_eq_true, hn, Finset.card_univ, hα] at hsum
  exact Nat.add_left_cancel hsum

theorem card_illegal_words :
    (Finset.univ.filter fun w : CmdWord => (decode w).isOk = false).card = 785661 :=
  card_filter_eq_false card_legal_words (fintypeCard_bitVec 20)

end Sys2Proof
end

section
/-! PROOFS. A command word at the ports (spec/30_encoding.md section 4, R50 to R53, R58): an equation for
each thing a step can do, and the one response that every word in progress gets. -/

namespace Sys2Proof.Machine

/-! ### The step, case by case -/

section StepEquations

variable {s : State}

/-- Reset overrides everything (R52). -/
theorem step_of_reset (hr : s.portIn.reset = true) : step s = .next s.sampled.applyReset := by
  simp [step, portStep, portStepWith, hr]

/-- A busy block performs the word in progress (R51). -/
theorem step_of_busy {w : CmdWord} (hr : s.portIn.reset = false) (hw : s.inProgress = some w) :
    step s = runCommand w s.sampled := by
  simp [step, portStep, portStepWith, runCommand, hr, hw]

/-- An idle block accepts the word offered (R51). -/
theorem step_of_offer (hr : s.portIn.reset = false) (hidle : s.inProgress = none)
    (hv : s.portIn.cmdValid = true) : step s = .next (s.sampled.accept s.portIn.cmd) := by
  simp [step, portStep, portStepWith, State.idleStep, hr, hidle, hv]

/-- An idle block that is offered nothing samples its inputs. -/
theorem step_of_quiet (hr : s.portIn.reset = false) (hidle : s.inProgress = none)
    (hv : s.portIn.cmdValid = false) : step s = .next s.sampled := by
  simp [step, portStep, portStepWith, State.idleStep, hr, hidle, hv]

end StepEquations

theorem portIn_of_inputs {s : State} {p : PortIn} {ps : List PortIn} (h : s.inputs = p :: ps) :
    s.portIn = p := by
  rw [State.portIn, h, List.headD_cons]

theorem cmdReady_iff {s : State} :
    s.cmdReady = true ↔ s.inProgress = none ∧ s.portIn.reset = false := by
  simp [State.cmdReady]

/-- A block with a word in progress is not ready. -/
theorem cmdReady_of_busy {s : State} {w : CmdWord} (hw : s.inProgress = some w) :
    s.cmdReady = false := by
  simp [State.cmdReady, hw]

/-- A block being reset is not ready. -/
theorem cmdReady_of_reset {s : State} (hr : s.portIn.reset = true) : s.cmdReady = false := by
  simp [State.cmdReady, hr]

/-- Settles O6: by the equations of a busy step and of a word that decodes. -/
theorem stepPerformsTheDecodedCommand : Obligations.StepPerformsTheDecodedCommand :=
  fun s _ _ hr hw hd => (step_of_busy hr hw).trans (runCommand_of_ok hd s.sampled)

/-- Settles O7: by the equation of a step that accepts. -/
theorem idleBlockAcceptsTheOfferedWord : Obligations.IdleBlockAcceptsTheOfferedWord :=
  fun _ hr hv hidle =>
    ⟨cmdReady_iff.2 ⟨hidle, hr⟩, _, step_of_offer hr hidle hv, rfl, rfl, rfl, rfl, rfl⟩

/-- Settles O10: by the equation of a reset step. -/
theorem resetOverridesEverything : Obligations.ResetOverridesEverything :=
  fun _ hr => ⟨cmdReady_of_reset hr, _, step_of_reset hr, rfl, rfl, rfl, rfl, rfl⟩

/-! ### Responses -/

/-- Settles O16: by the laws of the response word. -/
theorem responseWordHoldsStatusAndValue : Obligations.ResponseWordHoldsStatusAndValue :=
  ⟨fun s st v => ⟨rspWord st v, respond_rsp s st v, rspStatus_rspWord st v, rspValue_rspWord st v,
    rspWord_toNat st v⟩, fun _ _ => rfl⟩

/-- No write of R26 touches what the host drives. -/
theorem Written.inputs_eq {s u : State} (h : Written s u) : u.inputs = s.inputs := by
  cases h <;> rfl

/-- However a word in progress ends, a response is presented and the block is idle (R51, R53). -/
theorem runCommand_next {w : CmdWord} {s t : State} (h : runCommand w s = .next t) :
    t.inProgress = none ∧ (∃ r, t.rsp = some r) ∧ t.inputs = s.inputs := by
  cases hd : decode w with
  | ok i =>
    rw [runCommand_of_ok hd] at h
    obtain ⟨c, -, rfl⟩ | ⟨v, u, hu, rfl⟩ := exec_next h
    · exact ⟨rfl, ⟨_, rfl⟩, rfl⟩
    · exact ⟨rfl, ⟨_, rfl⟩, hu.inputs_eq⟩
  | error e =>
    obtain rfl := Host.Outcome.next.inj ((runCommand_of_error hd s).symm.trans h)
    exact ⟨rfl, ⟨_, rfl⟩, rfl⟩

/-- A step of an idle block presents no new response: reset and acceptance withdraw one, and a quiet step
keeps what is there. -/
theorem rsp_of_idle_step {s t : State} (hidle : s.inProgress = none) (h : step s = .next t) :
    t.rsp = s.rsp ∨ t.rsp = none := by
  cases hr : s.portIn.reset with
  | true =>
    obtain rfl := Host.Outcome.next.inj ((step_of_reset hr).symm.trans h)
    exact .inr rfl
  | false =>
    cases hv : s.portIn.cmdValid with
    | true =>
      obtain rfl := Host.Outcome.next.inj ((step_of_offer hr hidle hv).symm.trans h)
      exact .inr rfl
    | false =>
      obtain rfl := Host.Outcome.next.inj ((step_of_quiet hr hidle hv).symm.trans h)
      exact .inl rfl

/-- Settles O9: one step accepts; the next, which answers a state since every step does, performs the word
and so presents its response. -/
theorem acceptedCommandGetsOneResponse : Obligations.AcceptedCommandGetsOneResponse := by
  refine ⟨fun s p q rest hidle hin hpr hpv hqr => ?_, fun _ _ => rsp_of_idle_step⟩
  obtain rfl := portIn_of_inputs hin
  have htail : s.sampled.inputs = q :: rest := by rw [sampled_inputs, hin, List.tail_cons]
  have hq : (s.sampled.accept s.portIn.cmd).portIn = q := portIn_of_inputs htail
  obtain ⟨u, hu⟩ := everyStepIsSafe (s.sampled.accept s.portIn.cmd)
  obtain ⟨huidle, ⟨r, hr⟩, huin⟩ := runCommand_next ((step_of_busy (hq ▸ hqr) rfl).symm.trans hu)
  refine ⟨_, u, r, step_of_offer hpr hidle hpv, rfl, rfl, cmdReady_of_busy rfl, rfl, rfl,
    hu, huidle, hr, ?_⟩
  rw [huin, sampled_inputs, accept_inputs, htail, List.tail_cons]

/-- Settles O3: the decoder rejects the words of R58, `IllegalCommand` is raised in the step that would
perform one, and the words are counted by their fields. -/
theorem illegalWordsAreAnsweredAndChangeNothing :
    Obligations.IllegalWordsAreAnsweredAndChangeNothing :=
  ⟨exists_decode_eq_error_iff,
    fun _ _ hr hv hidle _ => ⟨_, step_of_offer hr hidle hv, rfl⟩,
    fun s _ _ hr hw hd => ⟨_, (step_of_busy hr hw).trans (runCommand_of_error hd s.sampled),
      rfl, rfl, rfl, rfl, rfl⟩,
    card_legal_words, card_illegal_words⟩

end Sys2Proof.Machine
end

section
/-! PROOFS. Field addition (spec/40_field_add.md, R70 to R73): the laws of the function, the adder's two
commands and their word, and what of a command's outcome the field's parameters can change. -/

namespace Sys2Proof.Machine

/-! ### What of an outcome depends on the parameters -/

/-- Two outcomes that may differ in the value of an `OK` response and in nothing else. -/
inductive SameButValue : Result → Result → Prop where
  | completes (u : State) (v v' : Byte) :
    SameButValue (.next (u.respond .ok v)) (.next (u.respond .ok v'))
  | raises (s : State) (c : Status) : SameButValue (.next (s.raise c)) (.next (s.raise c))

namespace SameButValue

/-- A test that comes before the arithmetic: the arithmetic runs only where the test fails. -/
theorem ite {c : Prop} [Decidable c] {o o' u u' : Result} (ho : SameButValue o o')
    (hu : ¬ c → SameButValue u u') : SameButValue (if c then o else u) (if c then o' else u') := by
  split
  · exact ho
  · exact hu ‹_›

theorem respondWith {v v' : Except Fault Byte} (hv : ∃ b, v = .ok b) (hv' : ∃ b, v' = .ok b)
    (s : State) : SameButValue (respondWith v s) (respondWith v' s) := by
  obtain ⟨b, rfl⟩ := hv
  obtain ⟨b', rfl⟩ := hv'
  exact completes s b b'

/-- No test of a command reads the parameters, and under legal ones the arithmetic after the tests answers
a byte. -/
theorem execFor {F F' : FieldParams} (h : LegalParams F) (h' : LegalParams F') (i : Instr)
    (s : State) : SameButValue (execFor F i s) (execFor F' i s) := by
  cases i with
  | add a b | sub a b | pclr | lclr => exact completes ..
  | mul a b => exact respondWith (h.gfMul_isOk a b) (h'.gfMul_isOk a b) s
  | div a b =>
    refine ite (raises ..) fun hb => ?_
    rw [isZero_iff] at hb
    exact respondWith (h.gfDiv_isOk a hb) (h'.gfDiv_isOk a hb) s
  | inv a =>
    refine ite (raises ..) fun ha => ?_
    rw [isZero_iff] at ha
    exact respondWith (h.gfInv_isOk ha) (h'.gfInv_isOk ha) s
  | ppush c | lpush x y => exact ite (raises ..) fun _ => completes ..
  | peval x =>
    exact ite (raises ..) fun _ =>
      respondWith (h.polyEval_isOk s.pcoef x) (h'.polyEval_isOk s.pcoef x) s
  | linterp =>
    refine ite (raises ..) fun _ => ite (raises ..) fun hd => ?_
    rw [duplicatePoints_iff, not_not] at hd
    exact respondWith (h.lagrange0_isOk hd) (h'.lagrange0_isOk hd) s

/-- What the host sees of two such outcomes: the same status and the same buffers, and after a condition
the same state. -/
theorem exists_responses {o o' : Result} (h : SameButValue o o') :
    ∃ t t' r r', o = .next t ∧ o' = .next t' ∧ t.rsp = some r ∧ t'.rsp = some r' ∧
      rspStatus r = rspStatus r' ∧ (rspStatus r ≠ 0x0#4 → t = t') ∧
      t.pcoef = t'.pcoef ∧ t.points = t'.points := by
  cases h with
  | completes u v v' =>
    have hok : rspStatus (rspWord .ok v) = 0x0#4 := rspStatus_rspWord .ok v
    exact ⟨_, _, _, _, rfl, rfl, rfl, rfl, hok.trans (rspStatus_rspWord .ok v').symm,
      fun hne => absurd hok hne, rfl, rfl⟩
  | raises s c => exact ⟨_, _, _, _, rfl, rfl, rfl, rfl, rfl, fun _ => rfl, rfl, rfl⟩

end SameButValue

/-- Settles O55: only the value of an `OK` response can differ, and the arms of the adder and of the
buffers do not take the parameters. -/
theorem statusesDoNotDependOnTheParameters : Obligations.StatusesDoNotDependOnTheParameters := by
  intro F F' h h' i s
  refine ⟨(SameButValue.execFor h h' i s).exists_responses, ?_⟩
  cases i with
  | mul a b | div a b | inv a | peval x | linterp => trivial
  | add a b | sub a b | pclr | ppush c | lclr | lpush x y => rfl

/-! ### The function and the commands of the adder -/

/-- Settles O22: addition is the exclusive-or of bit vectors. -/
theorem additionLaws : Obligations.AdditionLaws := fun a b c =>
  ⟨BitVec.xor_comm a b, BitVec.xor_zero, BitVec.xor_self, (BitVec.xor_assoc a b c).symm, rfl, rfl⟩

theorem decode_eq_ok_iff {w : CmdWord} {i : Instr} :
    decode w = .ok i ↔ encode i = w ∧ i.wellFormed = true :=
  ⟨encode_of_decode_eq_ok, fun ⟨henc, hwf⟩ => henc ▸ decode_encode hwf⟩

/-- A command with both operand fields: its row of R56 selects exactly the words that decode to it with the
fields of the word as operands. -/
theorem and_mask_two_iff_decode {w : CmdWord} {op : BitVec 4} {i : Instr}
    (henc : encode i = mkCmd op (cmdA w) (cmdB w)) (hwf : i.wellFormed = true) :
    w &&& 0xF0000#20 = mkCmd op 0#8 0#8 ↔ decode w = .ok i := by
  rw [and_mask_two, decode_eq_ok_iff, henc, mkCmd_eq_iff]
  simp [hwf]

/-- Settles O29: the word by its fields, the effect by the adder's definition. -/
theorem addAnswersExclusiveOr : Obligations.AddAnswersExclusiveOr := fun a b _ =>
  ⟨mkCmd_toNat 0x1#4 a b, fun _ => and_mask_two_iff_decode (op := 0x1#4) rfl rfl, rfl, rfl⟩

end Sys2Proof.Machine
end

section
/-! PROOFS. The multiplier (R75 to R78), and division and inversion as the commands that undo it (R84). -/

namespace Sys2Proof.Machine

/-! ### The function of the multiplier -/

/-- Settles O24: multiplying by a power of `GEN` is that many multiplications by `GEN`, in the tables as in the
reference (`LegalParams.gfMul_eq_mulRef`). -/
theorem tableProductIsPolynomialProduct : Obligations.TableProductIsPolynomialProduct :=
  fun _ h => h.gfMul_eq_mulRef

/-- Settles O25: the table product is the reference product, whose laws hold for every `POLY`; the
inverses are those of the tables. -/
theorem multiplicationLaws : Obligations.MultiplicationLaws := fun F h =>
  ⟨mulRef F.poly, h.gfMul_eq_mulRef, fun a b c => (mulRef_assoc F.poly a b c).symm, mulRef_one F.poly,
    mulRef_comm F.poly, mulRef_xor_right F.poly, fun _ => h.exists_gfInv⟩

/-- A product is 0x00 exactly when a factor is: a nonzero factor cancels. -/
theorem LegalParams.mulRef_eq_zero_iff {F : FieldParams} (h : LegalParams F) {a b : Byte} :
    mulRef F.poly a b = 0x00#8 ↔ a = 0x00#8 ∨ b = 0x00#8 := by
  constructor
  · intro hab
    by_cases hb : b = 0x00#8
    · exact .inr hb
    · exact .inl (h.mulRef_right_cancel hb (by rw [hab, zero_mulRef]))
  · rintro (rfl | rfl)
    · exact zero_mulRef F.poly b
    · exact mulRef_zero F.poly a

/-! ### The commands -/

theorem exec_mul (a b : Byte) (s : State) :
    exec (.mul a b) s = .next (s.respond .ok (mulRef Config.field.poly a b)) := by
  rw [exec_eq_execFor, execFor_mul, respondWith_of_ok (config_legal.gfMul_eq_mulRef a b)]

/-- Settles O30: the word by its fields, the answer by the reference product. -/
theorem mulAnswersTheTableProduct : Obligations.MulAnswersTheTableProduct := fun a b s =>
  ⟨mkCmd_toNat 0x2#4 a b, fun _ => and_mask_two_iff_decode (op := 0x2#4) rfl rfl,
    mulRef Config.field.poly a b, config_legal.gfMul_eq_mulRef a b, exec_mul a b s,
    config_legal.mulRef_eq_zero_iff⟩

/-- Settles O31: 0x11D is the default `POLY`. -/
theorem mulAnswersThePolynomialProduct : Obligations.MulAnswersThePolynomialProduct := exec_mul

/-- Settles O34: the quotient of `a` is the byte whose product with `b` is `a`, and `b` cancels, so the
quotient of the product of `a` and `b` is `a`. -/
theorem divAndInvUndoMul : Obligations.DivAndInvUndoMul := by
  intro a b s hb
  obtain ⟨-, hdiv, hinv, -, -⟩ := fieldCommandsUnderAllParameters Config.field config_legal s
  simp only [← exec_eq_execFor] at hdiv hinv
  obtain ⟨q, hqb, hq⟩ := hdiv a b hb
  obtain ⟨q', hq'b, hq'⟩ := hdiv (mulRef Config.field.poly a b) b hb
  obtain ⟨v, hbv, hv⟩ := hinv b hb
  obtain rfl : q' = a := config_legal.mulRef_right_cancel hb hq'b
  exact ⟨q, _, v, hq, by rw [exec_mul, hqb], exec_mul q' b s, hq', hv, by rw [exec_mul, hbv]⟩

end Sys2Proof.Machine
end

section
/-! PROOFS. Division and inversion (R80 to R84): the quotient is the byte whose product with the divisor is the
dividend, and the commands answer it unless the divisor is 0x00. -/

namespace Sys2Proof.Machine

/-! ### The functions of the divider -/

/-- A nonzero divisor cancels, so only the quotient has the dividend as its product with it. -/
theorem LegalParams.gfDiv_eq_of_mulRef_eq {F : FieldParams} (h : LegalParams F) {a b q : Byte}
    (hb : b ≠ 0x00#8) (hqb : mulRef F.poly q b = a) : gfDiv F a b = .ok q := by
  obtain ⟨q', hq', hq'b⟩ := h.exists_gfDiv a hb
  rw [hq', h.mulRef_right_cancel hb (hq'b.trans hqb.symm)]

/-- Settles O26: the inverse times the divisor is 0x01, so the product of `a` and the inverse, times the
divisor, is `a`. -/
theorem divisionIsProductWithInverse : Obligations.DivisionIsProductWithInverse := by
  intro F h a b hb
  obtain ⟨v, hv, hbv⟩ := h.exists_gfInv hb
  have hvb : mulRef F.poly v b = 0x01#8 := by rw [mulRef_comm, hbv]
  have hqb : mulRef F.poly (mulRef F.poly a v) b = a := by rw [mulRef_assoc, hvb, mulRef_one]
  exact ⟨mulRef F.poly a v, v, h.gfDiv_eq_of_mulRef_eq hb hqb, hv, h.gfMul_eq_mulRef a v,
    h.gfDiv_eq_of_mulRef_eq hb hvb⟩

/-! ### The commands -/

/-- A command with the operand field `a` alone: its row of R56 selects exactly the words that decode to it
with that field of the word as operand. -/
theorem and_mask_one_iff_decode {w : CmdWord} {op : BitVec 4} {i : Instr}
    (henc : encode i = mkCmd op (cmdA w) 0#8) (hwf : i.wellFormed = true) :
    w &&& 0xF00FF#20 = mkCmd op 0#8 0#8 ↔ decode w = .ok i := by
  rw [and_mask_one, decode_eq_ok_iff, henc, mkCmd_eq_iff]
  simp [hwf]

/-- Settles O32: the word by its fields; the divisor test comes first, and after it the table quotient
exists. -/
theorem divAnswersTheTableQuotient : Obligations.DivAnswersTheTableQuotient := by
  intro a b s
  refine ⟨mkCmd_toNat 0x3#4 a b, fun _ => and_mask_two_iff_decode (op := 0x3#4) rfl rfl, ?zero, ?nonzero⟩
  case zero =>
    rintro rfl
    rw [exec_eq_execFor, execFor_div_zero]
  case nonzero =>
    intro hb
    obtain ⟨q, hq⟩ := config_legal.gfDiv_isOk a hb
    refine ⟨q, hq, ?_, ?_⟩
    · rw [exec_eq_execFor, execFor_div_of_ne_zero _ a hb, respondWith_of_ok hq]
    · rintro rfl
      exact Except.ok.inj (hq.symm.trans (gfDiv_zero_left _ b))

/-- Settles O33: the word by its fields; the zero test comes first, and after it the table inverse
exists. -/
theorem invAnswersTheTableInverse : Obligations.InvAnswersTheTableInverse := by
  intro a s
  refine ⟨mkCmd_toNat 0x4#4 a 0#8, fun _ => and_mask_one_iff_decode (op := 0x4#4) rfl rfl, ?zero, ?nonzero⟩
  case zero =>
    rintro rfl
    rw [exec_eq_execFor, execFor_inv_zero]
  case nonzero =>
    intro ha
    obtain ⟨v, hv⟩ := config_legal.gfInv_isOk ha
    exact ⟨v, hv, by rw [exec_eq_execFor, execFor_inv_of_ne_zero _ ha, respondWith_of_ok hv]⟩

end Sys2Proof.Machine
end

section
/-! PROOFS. The polynomial evaluator (R90 to R96): what its sum is at 0x00 and 0x01, and the words and effects
of its three commands. -/

namespace Sys2Proof.Machine

/-! ### The function of the evaluator -/

@[simp] theorem polySum_cons_zero (poly : BitVec 9) (c : Byte) (cs : List Byte) :
    polySum poly (c :: cs) 0x00#8 = c := by
  rw [polySum_cons, mulRef_zero, BitVec.zero_xor]

@[simp] theorem polySum_singleton (poly : BitVec 9) (c x : Byte) : polySum poly [c] x = c := by
  rw [polySum_cons, polySum_nil, zero_mulRef, BitVec.zero_xor]

theorem polySum_one_eq_foldr (poly : BitVec 9) (cs : List Byte) :
    polySum poly cs 0x01#8 = cs.foldr (fun u v => u ^^^ v) 0x00#8 := by
  induction cs with
  | nil => rfl
  | cons c cs ih => rw [polySum_cons, mulRef_one, ih, List.foldr_cons, BitVec.xor_comm]

/-- Settles O28: Horner's method gives the sum; at 0x00 every term but the constant one is a product with
0x00, and at 0x01 every term is its coefficient. -/
theorem hornerGivesThePowerSum : Obligations.HornerGivesThePowerSum := by
  intro F h c cs x
  simp only [h.polyEval_eq_polySum, polySum_cons_zero, polySum_singleton, true_and]
  rw [polySum_one_eq_foldr, List.foldl_eq_foldr]

/-! ### The commands -/

/-- A command without operands: its row of R56 selects exactly one word, the command's. -/
theorem and_mask_none_iff_decode {w : CmdWord} {op : BitVec 4} {i : Instr}
    (henc : encode i = mkCmd op 0#8 0#8) (hwf : i.wellFormed = true) :
    w &&& 0xFFFFF#20 = mkCmd op 0#8 0#8 ↔ decode w = .ok i := by
  rw [and_mask_none, decode_eq_ok_iff, henc, mkCmd_eq_iff]
  simp [hwf]

/-- Under the default parameters `PEVAL` answers the field sum of R91. -/
theorem exec_peval_of_ne_nil (x : Byte) {s : State} (hs : s.pcoef ≠ []) :
    exec (.peval x) s = .next (s.respond .ok (polySum Config.field.poly s.pcoef x)) := by
  rw [exec_eq_execFor, execFor_peval_of_ne_nil _ x hs,
    respondWith_of_ok (config_legal.polyEval_eq_polySum s.pcoef x)]

/-- Settles O36: the word by its fields; by the invariant a count that is not 255 is below it, and the push
appends. -/
theorem ppushAppendsTheCoefficient : Obligations.PpushAppendsTheCoefficient := by
  intro c s hinv
  refine ⟨mkCmd_toNat 0x6#4 c 0#8, fun _ => and_mask_one_iff_decode (op := 0x6#4) rfl rfl, ?room, ?full⟩
  case room =>
    intro hne
    have hlt : s.pcnt < 255 := lt_of_le_of_ne hinv.pcap hne
    have hexec := execFor_ppush_of_lt Config.field c hlt
    rw [← exec_eq_execFor, pushCoefficient_pcnt] at hexec
    exact ⟨_, hexec, pushCoefficient_pcnt s c, List.getElem?_concat_length,
      fun j hj => List.getElem?_append_left hj, rfl, rfl, rfl, rfl⟩
  case full =>
    intro hfull
    rw [exec_eq_execFor, execFor_ppush_of_full _ c hfull.ge]

/-- Settles O37: the word by its fields; `PCNT` is 0 exactly when no coefficient is held, and otherwise the
sum of R91 is the value. -/
theorem pevalAnswersTheValue : Obligations.PevalAnswersTheValue := by
  intro x s
  refine ⟨mkCmd_toNat 0x7#4 x 0#8, fun _ => and_mask_one_iff_decode (op := 0x7#4) rfl rfl, ?held, ?empty⟩
  case held =>
    intro hs
    exact ⟨_, config_legal.polyEval_eq_polySum s.pcoef x,
      exec_peval_of_ne_nil x (mt List.length_eq_zero_iff.2 hs)⟩
  case empty =>
    intro hs
    rw [exec_eq_execFor, execFor_peval_of_nil _ x (List.length_eq_zero_iff.1 hs)]

/-- Settles O38: the sum of R91 at 0x00 is the coefficient at index 0. -/
theorem pevalAtZeroAnswersTheConstantTerm : Obligations.PevalAtZeroAnswersTheConstantTerm := by
  intro s c hc
  rw [← List.head?_eq_getElem?, List.head?_eq_some_iff] at hc
  obtain ⟨cs, hcs⟩ := hc
  have hne : s.pcoef ≠ [] := by rw [hcs]; exact List.cons_ne_nil c cs
  rw [exec_peval_of_ne_nil _ hne, hcs, polySum_cons_zero]

/-- Settles O35: the word is a row of R56 without operands, and the effect is `PCLR`'s definition. -/
theorem pclrEmptiesTheCoefficients : Obligations.PclrEmptiesTheCoefficients := fun _ =>
  ⟨rfl, fun _ => and_mask_none_iff_decode (op := 0x5#4) rfl rfl, _, rfl, rfl, rfl, rfl, rfl, rfl⟩

end Sys2Proof.Machine
end

section
/-! PROOFS. The Lagrange interpolator (R100 to R106): through points with distinct x-coordinates passes exactly
one polynomial with as many coefficients, and what `LINTERP` answers is its constant term. -/

namespace Sys2Proof.Machine

/-! ### The polynomial through the points -/

namespace FieldReading

open Polynomial

variable {K : Type} [Field K] {poly : BitVec 9}

/-- Among the lists of one length, a polynomial has one list of coefficients. -/
theorem eq_of_polynomial_eq (e : FieldReading poly K) {c c' : List Byte} (hlen : c.length = c'.length)
    (heq : e.polynomial c = e.polynomial c') : c = c' := by
  induction c generalizing c' with
  | nil => exact (List.length_eq_zero_iff.1 hlen.symm).symm
  | cons a c ih =>
    obtain ⟨a', c', rfl⟩ := List.exists_cons_of_length_eq_add_one hlen.symm
    have hconst := congrArg (eval 0) heq
    rw [e.eval_zero_polynomial_cons, e.eval_zero_polynomial_cons] at hconst
    obtain rfl := e.injective hconst
    rw [polynomial, polynomial, add_left_inj] at heq
    rw [ih (Nat.succ.inj hlen) (mul_right_cancel₀ X_ne_zero heq)]

end FieldReading

section Points

variable {F : FieldParams} {pts : List Point}

/-- R100: two polynomials with as many coefficients as there are points differ at one of the points. -/
theorem LegalParams.eq_of_polySum_eq (h : LegalParams F) (hd : distinctX pts) {c c' : List Byte}
    (hc : c.length = pts.length) (hc' : c'.length = pts.length)
    (heq : ∀ p ∈ pts, polySum F.poly c p.x = polySum F.poly c' p.x) : c = c' := by
  obtain ⟨K, _, ⟨e⟩⟩ := h.exists_fieldReading
  refine e.eq_of_polynomial_eq (hc.trans hc'.symm) ?_
  rw [e.polynomial_eq_interpolate hd hc.le, e.polynomial_eq_interpolate hd hc'.le]
  refine Lagrange.interpolate_eq_of_values_eq_on _ _ fun x hx => ?_
  obtain ⟨p, hp, rfl⟩ := List.mem_map.1 (List.mem_toFinset.1 hx)
  rw [e.eval_polynomial, e.eval_polynomial, heq p hp]

/-- The values at the points of the polynomial with these coefficients, as many as there are points. -/
def valuesAt (poly : BitVec 9) (pts : List Point) (c : List.Vector Byte pts.length) :
    List.Vector Byte pts.length :=
  ⟨pts.map fun p => polySum poly c.toList p.x, List.length_map _⟩

theorem valuesAt_eq_iff {poly : BitVec 9} {c v : List.Vector Byte pts.length} {f : Point → Byte}
    (hv : v.toList = pts.map f) :
    valuesAt poly pts c = v ↔ ∀ p ∈ pts, polySum poly c.toList p.x = f p := by
  rw [← List.map_inj_left, ← hv]
  exact Subtype.ext_iff

/-- R100: there is a polynomial through the points. Different coefficients give different values at the
points, and there are as many lists of coefficients as of values, so every list of values is taken. -/
theorem LegalParams.exists_liesOn (h : LegalParams F) (hd : distinctX pts) :
    ∃ c : List Byte, c.length = pts.length ∧ liesOn F.poly c pts := by
  have hinj : Function.Injective (valuesAt F.poly pts) := fun c c' heq =>
    Subtype.ext (h.eq_of_polySum_eq hd c.2 c'.2 ((valuesAt_eq_iff rfl).1 heq))
  obtain ⟨c, hc⟩ := Finite.surjective_of_injective hinj ⟨pts.map Point.y, List.length_map _⟩
  exact ⟨c.toList, c.2, (valuesAt_eq_iff rfl).1 hc⟩

/-- R100, R105: the interpolator answers the constant term of the polynomial through the points. -/
theorem LegalParams.exists_lagrange0_liesOn (h : LegalParams F) (hd : distinctX pts) (hne : pts ≠ []) :
    ∃ c cs, (c :: cs).length = pts.length ∧ liesOn F.poly (c :: cs) pts ∧ lagrange0 F pts = .ok c := by
  obtain ⟨c, hlen, hon⟩ := h.exists_liesOn hd
  cases c with
  | nil => exact absurd (List.length_eq_zero_iff.1 hlen.symm) hne
  | cons c cs => exact ⟨c, cs, hlen, hon, h.lagrange0_of_liesOn hd hlen.le hon⟩

/-- R105: the order of the points does not matter, since a polynomial passes through them in any order. -/
theorem LegalParams.lagrange0_perm (h : LegalParams F) (hd : distinctX pts) {pts' : List Point}
    (hperm : pts'.Perm pts) (hne : pts ≠ []) : lagrange0 F pts' = lagrange0 F pts := by
  obtain ⟨c, cs, hlen, hon, hval⟩ := h.exists_lagrange0_liesOn hd hne
  rw [hval]
  exact h.lagrange0_of_liesOn ((hperm.map Point.x).nodup_iff.2 hd)
    (hlen.trans hperm.length_eq.symm).le fun p hp => hon p (hperm.mem_iff.1 hp)

/-- R106: the polynomial through a point with x-coordinate 0x00 has that point's y as constant term. -/
theorem LegalParams.lagrange0_of_mem_zero (h : LegalParams F) (hd : distinctX pts) {y : Byte}
    (hy : ⟨0x00#8, y⟩ ∈ pts) : lagrange0 F pts = .ok y := by
  obtain ⟨c, cs, -, hon, hval⟩ := h.exists_lagrange0_liesOn hd (List.ne_nil_of_mem hy)
  have hat : polySum F.poly (c :: cs) 0x00#8 = y := hon _ hy
  rw [hval, ← hat, polySum_cons_zero]

end Points

/-- Settles O43: uniqueness from the interpolating polynomial, existence by counting, and the answer is the
constant term, which is the value at 0. -/
theorem lagrangeGivesTheUniquePolynomialAtZero :
    Obligations.LagrangeGivesTheUniquePolynomialAtZero := by
  intro pts hm hd
  obtain ⟨c, cs, hlen, hon, hval⟩ :=
    config_legal.exists_lagrange0_liesOn hd (List.ne_nil_of_length_pos (by omega))
  refine ⟨c :: cs, hlen, hon, fun c' hlen' hon' => ?_, hval, polySum_cons_zero ..⟩
  exact config_legal.eq_of_polySum_eq hd hlen' hlen fun p hp => (hon' p hp).trans (hon p hp).symm

/-! ### `LINTERP` -/

/-- The x-coordinates are distinct exactly when no two points at different indices share theirs (R104). -/
theorem distinctX_iff {pts : List Point} :
    distinctX pts ↔ ∀ (j k : Nat) (p q : Point), j < k → pts[j]? = some p → pts[k]? = some q →
      p.x ≠ q.x := by
  refine ⟨fun hd j k p q hjk hp hq => hd.ne hp hq hjk.ne, fun hne => ?_⟩
  rw [distinctX, List.Nodup, List.pairwise_map, List.pairwise_iff_getElem]
  exact fun j k hj hk hjk =>
    hne j k _ _ hjk (List.getElem?_eq_getElem hj) (List.getElem?_eq_getElem hk)

/-- `LINTERP` on enough distinct points responds with the interpolator's answer. -/
theorem exec_linterp_of_lagrange0 {s : State} {v : Byte} (hs : 2 ≤ s.lcnt) (hd : distinctX s.points)
    (hv : lagrange0 Config.field s.points = .ok v) :
    exec .linterp s = .next (s.respond .ok v) := by
  rw [exec_eq_execFor, execFor_linterp_of_distinct _ hs hd, respondWith_of_ok hv]

/-- Settles O42: the word is a row of R56 without operands; the two tests come in this order, and two points
that share an x-coordinate pass the first. -/
theorem linterpAnswersTheInterpolatedValue : Obligations.LinterpAnswersTheInterpolatedValue := by
  intro s
  refine ⟨rfl, fun _ => and_mask_none_iff_decode (op := 0xA#4) rfl rfl, ?few, ?duplicate, ?distinct⟩
  case few =>
    intro hs
    rw [exec_eq_execFor, execFor_linterp_of_few _ hs]
  case duplicate =>
    rintro ⟨j, k, p, q, hjk, hp, hq, hx⟩
    have hk : k < s.lcnt := (List.getElem?_eq_some_iff.1 hq).1
    have hd : ¬ distinctX s.points := fun hd => distinctX_iff.1 hd j k p q hjk hp hq hx
    rw [exec_eq_execFor, execFor_linterp_of_duplicate _ (by omega) hd]
  case distinct =>
    intro hs hne
    obtain ⟨v, hv⟩ := config_legal.lagrange0_isOk (distinctX_iff.2 hne)
    exact ⟨v, hv, exec_linterp_of_lagrange0 hs (distinctX_iff.2 hne) hv⟩

/-- Settles O44: the points determine the polynomial. -/
theorem linterpRecoversTheConstantTerm : Obligations.LinterpRecoversTheConstantTerm :=
  fun _ _ _ hs hd hc hon =>
    exec_linterp_of_lagrange0 hs hd (config_legal.lagrange0_of_liesOn hd hc hon)

/-- Settles O46: the polynomial through the points has the constant term `y`. -/
theorem pointAtZeroDecidesTheResult : Obligations.PointAtZeroDecidesTheResult :=
  fun _ _ hs hd hy => exec_linterp_of_lagrange0 hs hd (config_legal.lagrange0_of_mem_zero hd hy)

/-- Settles O45: the number of points and whether they are distinct do not depend on their order, nor does
what the interpolator answers. -/
theorem linterpIgnoresTheOrderOfPoints : Obligations.LinterpIgnoresTheOrderOfPoints := by
  intro s t pts hperm ht
  have hlcnt : State.lcnt { s with points := pts } = s.lcnt := hperm.length_eq
  have hdistinct : distinctX pts ↔ distinctX s.points := (hperm.map Point.x).nodup_iff
  rw [exec_eq_execFor] at ht ⊢
  rcases Nat.lt_or_ge s.lcnt 2 with hs | hs
  · obtain rfl := Host.Outcome.next.inj ((execFor_linterp_of_few _ hs).symm.trans ht)
    exact execFor_linterp_of_few _ (hlcnt.trans_lt hs)
  by_cases hd : distinctX s.points
  · rw [execFor_linterp_of_distinct _ hs hd] at ht
    obtain ⟨v, hv, rfl⟩ := respondWith_eq_next.1 ht
    have hne : s.points ≠ [] := List.ne_nil_of_length_pos (Nat.zero_lt_of_lt hs)
    rw [execFor_linterp_of_distinct _ (hs.trans_eq hlcnt.symm) (hdistinct.2 hd),
      config_legal.lagrange0_perm hd hperm hne, respondWith_of_ok hv]
    rfl
  · obtain rfl := Host.Outcome.next.inj ((execFor_linterp_of_duplicate _ hs hd).symm.trans ht)
    exact execFor_linterp_of_duplicate _ (hs.trans_eq hlcnt.symm) (mt hdistinct.1 hd)

/-! ### `LPUSH` and `LCLR` -/

/-- Settles O41: the word by its fields; by the invariant a count that is not 255 is below it, and the push
appends. -/
theorem lpushAppendsThePoint : Obligations.LpushAppendsThePoint := by
  intro x y s hinv
  refine ⟨mkCmd_toNat 0x9#4 x y, fun _ => and_mask_two_iff_decode (op := 0x9#4) rfl rfl, ?room, ?full⟩
  case room =>
    intro hne
    have hlt : s.lcnt < 255 := lt_of_le_of_ne hinv.lcap hne
    have hexec := execFor_lpush_of_lt Config.field x y hlt
    rw [← exec_eq_execFor, pushPoint_lcnt] at hexec
    exact ⟨_, hexec, pushPoint_lcnt s x y, List.getElem?_concat_length,
      fun j hj => List.getElem?_append_left hj, rfl, rfl, rfl, rfl⟩
  case full =>
    intro hfull
    rw [exec_eq_execFor, execFor_lpush_of_full _ x y hfull.ge]

/-- Settles O40: the word is a row of R56 without operands, and the effect is `LCLR`'s definition. -/
theorem lclrEmptiesThePoints : Obligations.LclrEmptiesThePoints := fun _ =>
  ⟨rfl, fun _ => and_mask_none_iff_decode (op := 0x8#4) rfl rfl, _, rfl, rfl, rfl, rfl, rfl, rfl⟩

end Sys2Proof.Machine
end

section
/-! PROOFS. What the host's procedures (R110 to R122) answer without the block: share encoding and decoding, and
the checks that `generate` and `recover` make before they issue a command. -/

namespace Sys2Proof.Machine

/-! ### Share encoding -/

theorem decodeShare_eq_ok_iff {bs : List Byte} {sh : Share} :
    decodeShare bs = .ok sh ↔ encodeShare sh = bs := by
  cases bs with
  | nil => exact ⟨nofun, nofun⟩
  | cons x y =>
    obtain ⟨x', y'⟩ := sh
    simp [decodeShare, encodeShare, eq_comm]

@[simp] theorem encodeShare_length (sh : Share) : (encodeShare sh).length = sh.y.length + 1 := rfl

/-- Settles O47: a byte sequence decodes to a share exactly when it is the share's encoding. -/
theorem shareEncodingRoundTrip : Obligations.ShareEncodingRoundTrip := by
  refine ⟨fun sh => ⟨rfl, decodeShare_eq_ok_iff.2 rfl⟩, fun bs sh h => ?_, rfl⟩
  obtain rfl := decodeShare_eq_ok_iff.1 h
  exact ⟨rfl, by rw [encodeShare_length, Nat.add_sub_cancel]⟩

/-! ### The checks of `generate` -/

/-- Settles O48: each of the four is the negation of a part of the test `generate` makes first. -/
theorem generateChecksItsParameters : Obligations.GenerateChecksItsParameters := by
  intro secret k n r s hbad
  refine if_neg ?_
  rintro ⟨hsecret, hk, hkn, hn⟩
  rcases hbad with rfl | hlt | hlt | hlt
  · exact hsecret rfl
  all_goals omega

/-! ### The checks of `recover` -/

/-- The test of `recover` for unequal lengths compares every other share with the first (R117). -/
theorem any_length_ne_iff {sh : Share} {rest : List Share} :
    rest.any (fun q => q.y.length != sh.y.length) = true ↔
      ∃ p ∈ sh :: rest, ∃ q ∈ sh :: rest, p.y.length ≠ q.y.length := by
  rw [List.any_eq_true]
  simp only [bne_iff_ne]
  constructor
  · rintro ⟨q, hq, hne⟩
    exact ⟨q, List.mem_cons_of_mem sh hq, sh, List.mem_cons_self, hne⟩
  · rintro ⟨p, hp, q, hq, hne⟩
    by_contra! hall
    have hfirst : ∀ p ∈ sh :: rest, p.y.length = sh.y.length := List.forall_mem_cons.2 ⟨rfl, hall⟩
    exact hne ((hfirst p hp).trans (hfirst q hq).symm)

section Recover

variable {shares : List Share} {l : Nat} (s : State)

theorem recover_of_few (hm : shares.length < 2) :
    recover shares s = .error (.condition .inconsistentShares) := by
  match shares, hm with
  | [], _ | [_], _ => rfl

theorem recover_of_length_ne (hm : 2 ≤ shares.length)
    (hne : ∃ p ∈ shares, ∃ q ∈ shares, p.y.length ≠ q.y.length) :
    recover shares s = .error (.condition .inconsistentShares) := by
  match shares, hm with
  | sh :: sh' :: rest, _ => exact if_pos (any_length_ne_iff.2 hne)

/-- Shares of one length pass the first test; what follows is the test of their x-coordinates. -/
theorem recover_of_length_eq (hm : 2 ≤ shares.length) (hl : ∀ p ∈ shares, p.y.length = l) :
    recover shares s =
      if ¬ (shares.map Share.x).Nodup then .error (.condition .duplicateShare)
      else if l = 0 then .error .notStated
      else recoverLoop shares l 0 s := by
  match shares, hm with
  | sh :: sh' :: rest, _ =>
    obtain rfl := hl sh List.mem_cons_self
    have hsame : ¬ ∃ p ∈ sh :: sh' :: rest, ∃ q ∈ sh :: sh' :: rest, p.y.length ≠ q.y.length := by
      rintro ⟨p, hp, q, hq, hne⟩
      exact hne ((hl p hp).trans (hl q hq).symm)
    simp only [List.length_eq_zero_iff]
    exact if_neg (mt any_length_ne_iff.1 hsame)

theorem recover_of_duplicate (hm : 2 ≤ shares.length) (hl : ∀ p ∈ shares, p.y.length = l)
    (hd : ¬ (shares.map Share.x).Nodup) :
    recover shares s = .error (.condition .duplicateShare) := by
  rw [recover_of_length_eq s hm hl, if_pos hd]

theorem recover_of_distinct (hm : 2 ≤ shares.length) (hl : ∀ p ∈ shares, p.y.length = l)
    (hd : (shares.map Share.x).Nodup) (hne : l ≠ 0) :
    recover shares s = recoverLoop shares l 0 s := by
  rw [recover_of_length_eq s hm hl, if_neg (not_not.2 hd), if_neg hne]

end Recover

/-- A repeated x-coordinate takes two shares. -/
theorem two_le_length_of_not_nodup {shares : List Share} (hd : ¬ (shares.map Share.x).Nodup) :
    2 ≤ shares.length := by
  match shares, hd with
  | [], hd => exact absurd List.nodup_nil hd
  | [sh], hd => exact absurd (List.nodup_singleton sh.x) hd
  | _ :: _ :: rest, _ => exact Nat.le_add_left 2 rest.length

/-- Settles O49: the test of each clause fails, after those before it pass. -/
theorem recoverRejectsMalformedShares : Obligations.RecoverRejectsMalformedShares := fun _ s =>
  ⟨recover_of_few s, recover_of_length_ne s,
    fun ⟨_, hl⟩ hd => recover_of_duplicate s (two_le_length_of_not_nodup hd) hl hd⟩

end Sys2Proof.Machine
end

section
/-! PROOFS. The commands that `generate` (R115) and `recover` (R120) issue to an idle block for one byte position:
what they answer. -/

namespace Sys2Proof.Machine

theorem issueAll_append_of_ok_ok {is js : List Instr} {s t u : State} {vs ws : List Byte}
    (his : issueAll is s = .ok (vs, t)) (hjs : issueAll js t = .ok (ws, u)) :
    issueAll (is ++ js) s = .ok (vs ++ ws, u) := by
  rw [issueAll_append_of_ok his, hjs]
  rfl

/-! ### Evaluation -/

/-- R94 at the ports, with a coefficient held. -/
theorem issue_peval {s : State} (h : s.inProgress = none) (x : Byte) (hs : s.pcoef ≠ []) :
    ∃ t, issue (.peval x) s = .ok (polySum Config.field.poly s.pcoef x, t) ∧
      t.pcoef = s.pcoef ∧ t.inProgress = none :=
  ⟨_, issue_of_ok h (decode_encode rfl) (exec_peval_of_ne_nil x hs), rfl, rfl⟩

/-- The polynomial held is evaluated at every point asked for. -/
theorem issueAll_peval {s : State} (h : s.inProgress = none) (xs : List Byte) (hs : s.pcoef ≠ []) :
    ∃ t, issueAll (xs.map .peval) s = .ok (xs.map (polySum Config.field.poly s.pcoef), t) ∧
      t.inProgress = none := by
  induction xs generalizing s with
  | nil => exact ⟨s, rfl, h⟩
  | cons x xs ih =>
    obtain ⟨t, hissue, hpcoef, hidle⟩ := issue_peval h x hs
    obtain ⟨u, hrest, hidle'⟩ := ih hidle (hpcoef ▸ hs)
    rw [hpcoef] at hrest
    exact ⟨u, issueAll_cons_of_ok hissue hrest, hidle'⟩

/-- R115: after the responses to `PCLR` and the pushes come the values at the `n` x-coordinates. -/
theorem issueAll_generateCommands {s : State} (h : s.inProgress = none) {cs : List Byte}
    (hne : cs ≠ []) (hcs : cs.length ≤ 255) (n : Nat) :
    ∃ vs t, issueAll (generateCommands cs n) s = .ok (vs, t) ∧
      vs.drop (1 + cs.length) =
        (List.range n).map (fun j => polySum Config.field.poly cs (shareX j)) ∧
      t.inProgress = none := by
  obtain ⟨t, hpush, hpcoef, -, hidle⟩ := pushedCoefficientsAreHeldInOrder s cs h hcs
  obtain ⟨u, heval, hidle'⟩ := issueAll_peval hidle ((List.range n).map shareX) (hpcoef ▸ hne)
  rw [hpcoef, List.map_map, List.map_map] at heval
  refine ⟨_, u, issueAll_append_of_ok_ok hpush heval, ?_, hidle'⟩
  rw [List.drop_left' (by simp [Nat.add_comm])]
  rfl

/-! ### Interpolation -/

/-- R101 at the ports. -/
theorem issue_lclr {s : State} (h : s.inProgress = none) :
    ∃ t, issue .lclr s = .ok (0x00#8, t) ∧ t.points = [] ∧ t.inProgress = none :=
  ⟨_, issue_of_ok h (decode_encode rfl) rfl, rfl, rfl⟩

/-- R102 at the ports, with the buffer not full. -/
theorem issue_lpush {s : State} (h : s.inProgress = none) (p : Point) (hs : s.lcnt < 255) :
    ∃ t, issue (.lpush p.x p.y) s = .ok (countByte (s.lcnt + 1), t) ∧
      t.points = s.points ++ [p] ∧ t.inProgress = none := by
  have hexec := execFor_lpush_of_lt Config.field p.x p.y (s := accepted (encode (.lpush p.x p.y)) s) hs
  rw [← exec_eq_execFor, pushPoint_lcnt] at hexec
  exact ⟨_, issue_of_ok h (decode_encode rfl) hexec, rfl, rfl⟩

/-- Pushes for which there is room append their points. -/
theorem issueAll_lpush {s : State} (h : s.inProgress = none) (pts : List Point)
    (hs : s.lcnt + pts.length ≤ 255) :
    ∃ vs t, issueAll (pts.map fun p => .lpush p.x p.y) s = .ok (vs, t) ∧
      t.points = s.points ++ pts ∧ t.inProgress = none := by
  induction pts generalizing s with
  | nil => exact ⟨[], s, rfl, (List.append_nil _).symm, h⟩
  | cons p pts ih =>
    rw [List.length_cons] at hs
    obtain ⟨t, hissue, hpoints, hidle⟩ := issue_lpush h p (by omega)
    have hlcnt : t.lcnt = s.lcnt + 1 := by simp [lcnt_eq, hpoints]
    obtain ⟨vs, u, hrest, hpoints', hidle'⟩ := ih hidle (by omega)
    exact ⟨_, u, issueAll_cons_of_ok hissue hrest,
      by rw [hpoints', hpoints, List.append_assoc, List.singleton_append], hidle'⟩

/-- R103 at the ports, with enough distinct points. -/
theorem issue_linterp {s : State} {v : Byte} (h : s.inProgress = none) (hs : 2 ≤ s.lcnt)
    (hd : distinctX s.points) (hv : lagrange0 Config.field s.points = .ok v) :
    ∃ t, issue .linterp s = .ok (v, t) ∧ t.inProgress = none :=
  ⟨_, issue_of_ok h (decode_encode rfl)
    (exec_linterp_of_lagrange0 (s := accepted (encode .linterp) s) hs hd hv), rfl⟩

/-- The points that the shares give at byte position `i` (R118). -/
def pointsAt (shares : List Share) (i : Nat) : List Point :=
  shares.map fun sh => ⟨sh.x, sh.y.getD i 0x00#8⟩

@[simp] theorem pointsAt_length (shares : List Share) (i : Nat) :
    (pointsAt shares i).length = shares.length := List.length_map _

theorem distinctX_pointsAt {shares : List Share} {i : Nat} :
    distinctX (pointsAt shares i) ↔ (shares.map Share.x).Nodup := by
  rw [distinctX, pointsAt, List.map_map]
  rfl

theorem recoverCommands_eq (shares : List Share) (i : Nat) :
    recoverCommands shares i =
      [.lclr] ++ (pointsAt shares i).map (fun p => .lpush p.x p.y) ++ [.linterp] := by
  rw [recoverCommands, pointsAt, List.map_map]
  rfl

/-- R120: the last response is the interpolator's answer for the points at the byte position. -/
theorem issueAll_recoverCommands {s : State} (h : s.inProgress = none) {shares : List Share} {i : Nat}
    {v : Byte} (hm : 2 ≤ shares.length) (hcap : shares.length ≤ 255)
    (hd : (shares.map Share.x).Nodup) (hv : lagrange0 Config.field (pointsAt shares i) = .ok v) :
    ∃ vs t, issueAll (recoverCommands shares i) s = .ok (vs, t) ∧ vs.getLastD 0x00#8 = v ∧
      t.inProgress = none := by
  obtain ⟨t, hclear, hpoints, hidle⟩ := issue_lclr h
  obtain ⟨vs, u, hpush, hpoints', hidle'⟩ := issueAll_lpush hidle (pointsAt shares i)
    (by simpa [lcnt_eq, hpoints] using hcap)
  rw [hpoints, List.nil_append] at hpoints'
  obtain ⟨w, hinterp, hidle''⟩ := issue_linterp hidle' (by simpa [lcnt_eq, hpoints'] using hm)
    (hpoints' ▸ distinctX_pointsAt.2 hd) (hpoints' ▸ hv)
  rw [recoverCommands_eq]
  exact ⟨_, w, issueAll_append_of_ok_ok (issueAll_cons_of_ok hclear hpush)
    (issueAll_cons_of_ok hinterp (issueAll_nil w)), List.getLastD_concat .., hidle''⟩

end Sys2Proof.Machine
end

section
/-! PROOFS. Secret sharing (R125): what `generate` answers, what `recover` answers on shares whose points
interpolate to the bytes of a secret, and the round trip. -/

namespace Sys2Proof.Machine

/-! ### Generation -/

/-- The share at `x` (R112, R114): at each byte position the value there of the position's polynomial. -/
def shareAt (r : Nat → Nat → Byte) (k : Nat) (secret : List Byte) (x : Byte) : Share where
  x := x
  y := secret.mapIdx fun i b => polySum Config.field.poly (coefficientsAt r k i b) x

theorem shareAt_y_getD {r : Nat → Nat → Byte} {k : Nat} {secret : List Byte} {i : Nat} {b : Byte}
    (hb : secret[i]? = some b) (x : Byte) :
    (shareAt r k secret x).y.getD i 0x00#8 =
      polySum Config.field.poly (coefficientsAt r k i b) x := by
  simp [shareAt, hb]

/-- R111: a byte holds the x-coordinates `1, 2, ..., 255`. -/
theorem shareX_toNat {j : Nat} (hj : j < 255) : (shareX j).toNat = j + 1 := by
  rw [shareX, BitVec.toNat_ofNat, Nat.mod_eq_of_lt (by omega)]

theorem shareX_ne_zero {j : Nat} (hj : j < 255) : shareX j ≠ 0x00#8 := fun h => by
  simpa [shareX_toNat hj] using congrArg BitVec.toNat h

theorem nodup_map_shareX {n : Nat} (hn : n ≤ 255) : ((List.range n).map shareX).Nodup := by
  refine List.Nodup.map_on (fun j hj j' hj' heq => ?_) List.nodup_range
  rw [List.mem_range] at hj hj'
  have htoNat := congrArg BitVec.toNat heq
  rw [shareX_toNat (by omega), shareX_toNat (by omega)] at htoNat
  omega

theorem coefficientsAt_length (r : Nat → Nat → Byte) {k : Nat} (hk : 1 ≤ k) (i : Nat) (b : Byte) :
    (coefficientsAt r k i b).length = k := by
  simp [coefficientsAt, Nat.sub_add_cancel hk]

/-- The y-bytes of the `n` shares at byte position `i`, whose byte is `b`. -/
def columnAt (r : Nat → Nat → Byte) (k n i : Nat) (b : Byte) : List Byte :=
  (List.range n).map fun j => polySum Config.field.poly (coefficientsAt r k i b) (shareX j)

theorem columnAt_getD (r : Nat → Nat → Byte) (k : Nat) {n j : Nat} (hj : j < n) (i : Nat) (b : Byte) :
    (columnAt r k n i b).getD j 0x00#8 =
      polySum Config.field.poly (coefficientsAt r k i b) (shareX j) := by
  simp [columnAt, hj]

/-- The shares of R114 put together from the y-bytes of each byte position. -/
theorem sharesOf_columnAt (r : Nat → Nat → Byte) (k n : Nat) (secret : List Byte) :
    sharesOf n (secret.mapIdx (columnAt r k n)) =
      (List.range n).map fun j => shareAt r k secret (shareX j) := by
  refine List.map_congr_left fun j hj => congrArg (Share.mk (shareX j)) (List.ext_getElem? fun i => ?_)
  simp only [List.getElem?_map, List.getElem?_mapIdx, Option.map_map, Function.comp_def,
    columnAt_getD r k (List.mem_range.1 hj)]

theorem generateColumns_cons_of_ok {r : Nat → Nat → Byte} {k n i : Nat} {b : Byte} {bs vs : List Byte}
    {s t u : State} {cols : List (List Byte)}
    (hissue : issueAll (generateCommands (coefficientsAt r k i b) n) s = .ok (vs, t))
    (hrest : generateColumns r k n (i + 1) bs t = .ok (cols, u)) :
    generateColumns r k n i (b :: bs) s = .ok (vs.drop (1 + k) :: cols, u) := by
  rw [generateColumns, hissue]
  change (generateColumns r k n (i + 1) bs t >>= fun p => .ok (vs.drop (1 + k) :: p.1, p.2)) = _
  rw [hrest]
  rfl

/-- R115: the loop of `generate`, from byte position `i` on. -/
theorem generateColumns_of_idle {s : State} (h : s.inProgress = none) (r : Nat → Nat → Byte)
    {k : Nat} (hk : 1 ≤ k) (hk' : k ≤ 255) (n i : Nat) (bs : List Byte) :
    ∃ t, generateColumns r k n i bs s =
      .ok (bs.mapIdx fun d b => columnAt r k n (i + d) b, t) := by
  induction bs generalizing s i with
  | nil => exact ⟨s, rfl⟩
  | cons b bs ih =>
    have hlen := coefficientsAt_length r hk i b
    obtain ⟨vs, t, hissue, hvs, hidle⟩ := issueAll_generateCommands h
      (cs := coefficientsAt r k i b) (List.cons_ne_nil b _) (hlen.trans_le hk') n
    obtain ⟨u, hrest⟩ := ih hidle (i + 1)
    rw [hlen] at hvs
    refine ⟨u, ?_⟩
    rw [generateColumns_cons_of_ok hissue hrest, hvs, List.mapIdx_cons]
    simp only [Nat.add_assoc, Nat.add_comm 1]
    rfl

/-- R114: the shares of a generation with legal parameters. -/
theorem generate_of_idle {s : State} (h : s.inProgress = none) {secret : List Byte} (hne : secret ≠ [])
    {k n : Nat} (hk : 1 ≤ k) (hkn : k ≤ n) (hn : n ≤ 255) (r : Nat → Nat → Byte) :
    ∃ t, generate secret k n r s =
      .ok ((List.range n).map fun j => shareAt r k secret (shareX j), t) := by
  obtain ⟨t, ht⟩ := generateColumns_of_idle h r hk (hkn.trans hn) n 0 secret
  simp only [Nat.zero_add] at ht
  refine ⟨t, ?_⟩
  rw [generate, if_pos ⟨hne, hk, hkn, hn⟩, ht, ← sharesOf_columnAt]
  rfl

/-! ### Recovery -/

theorem recoverLoop_succ_of_ok {shares : List Share} {l i : Nat} {s t u : State} {vs bs : List Byte}
    (hissue : issueAll (recoverCommands shares i) s = .ok (vs, t))
    (hrest : recoverLoop shares l (i + 1) t = .ok (bs, u)) :
    recoverLoop shares (l + 1) i s = .ok (vs.getLastD 0x00#8 :: bs, u) := by
  rw [recoverLoop, hissue]
  change (recoverLoop shares l (i + 1) t >>= fun p => .ok (vs.getLastD 0x00#8 :: p.1, p.2)) = _
  rw [hrest]
  rfl

/-- R120: the loop of `recover` answers the bytes that the points at each byte position interpolate to. -/
theorem recoverLoop_of_idle {s : State} (h : s.inProgress = none) {shares : List Share}
    (hm : 2 ≤ shares.length) (hcap : shares.length ≤ 255) (hd : (shares.map Share.x).Nodup) (i : Nat)
    (bs : List Byte)
    (hbs : ∀ d b, bs[d]? = some b → lagrange0 Config.field (pointsAt shares (i + d)) = .ok b) :
    ∃ t, recoverLoop shares bs.length i s = .ok (bs, t) := by
  induction bs generalizing s i with
  | nil => exact ⟨s, rfl⟩
  | cons b bs ih =>
    obtain ⟨vs, t, hissue, hlast, hidle⟩ := issueAll_recoverCommands h hm hcap hd (hbs 0 b rfl)
    obtain ⟨u, hrest⟩ := ih hidle (i + 1) fun d c hc => by
      rw [Nat.add_assoc, Nat.add_comm 1]
      exact hbs (d + 1) c (by simpa using hc)
    exact ⟨u, hlast ▸ recoverLoop_succ_of_ok hissue hrest⟩

/-- R105: at each byte position at least `k` shares give the constant term, the secret's byte. -/
theorem lagrange0_pointsAt_shareAt {r : Nat → Nat → Byte} {k : Nat} (hk : 1 ≤ k) {secret : List Byte}
    {shares : List Share} (hd : (shares.map Share.x).Nodup) (hm : k ≤ shares.length)
    (hshares : ∀ sh ∈ shares, sh = shareAt r k secret sh.x) {i : Nat} {b : Byte}
    (hb : secret[i]? = some b) : lagrange0 Config.field (pointsAt shares i) = .ok b := by
  have hlen : (coefficientsAt r k i b).length ≤ (pointsAt shares i).length := by
    rwa [coefficientsAt_length r hk, pointsAt_length]
  refine config_legal.lagrange0_of_liesOn (distinctX_pointsAt.2 hd) hlen fun p hp => ?_
  obtain ⟨sh, hsh, rfl⟩ := List.mem_map.1 hp
  rw [hshares sh hsh]
  exact (shareAt_y_getD hb _).symm

/-- R120: enough shares at distinct x-coordinates give the secret back. -/
theorem recover_of_shareAt {s : State} (h : s.inProgress = none) {r : Nat → Nat → Byte} {k : Nat}
    (hk : 1 ≤ k) {secret : List Byte} (hne : secret ≠ []) {shares : List Share}
    (hd : (shares.map Share.x).Nodup) (hcap : shares.length ≤ 255)
    (hshares : ∀ sh ∈ shares, sh = shareAt r k secret sh.x) (hkm : k ≤ shares.length)
    (hm : 2 ≤ shares.length) : ∃ t, recover shares s = .ok (secret, t) := by
  have hlen : ∀ sh ∈ shares, sh.y.length = secret.length := fun sh hsh => by
    rw [hshares sh hsh]
    exact List.length_mapIdx
  rw [recover_of_distinct s hm hlen hd (mt List.length_eq_zero_iff.1 hne)]
  refine recoverLoop_of_idle h hm hcap hd 0 secret fun i b hb => ?_
  rw [Nat.zero_add]
  exact lagrange0_pointsAt_shareAt hk hd hkm hshares hb

theorem nodup_map_of_subperm {α β : Type} {f : α → β} {l l' : List α} (h : l.Subperm l')
    (hd : (l'.map f).Nodup) : (l.map f).Nodup := by
  obtain ⟨m, hperm, hsub⟩ := h
  exact (hperm.map f).nodup_iff.1 ((hsub.map f).nodup hd)

/-- Settles O50: each share holds the values of the positions' polynomials, and so do those chosen; at least
`k` values determine a polynomial of `k` coefficients, whose constant term is the secret's byte. -/
theorem sharesRecoverTheSecret : Obligations.SharesRecoverTheSecret := by
  intro secret k n r s s' hne hk hkn hn h h'
  obtain ⟨t, hgen⟩ := generate_of_idle h hne hk hkn hn r
  have hd : (((List.range n).map fun j => shareAt r k secret (shareX j)).map Share.x).Nodup := by
    rw [List.map_map]
    exact nodup_map_shareX hn
  refine ⟨_, t, hgen, by rw [List.length_map, List.length_range], hd, List.forall_mem_map.2 ?shape,
    fun chosen hsub hkm hm => ?recover⟩
  case shape =>
    exact fun j hj => ⟨shareX_ne_zero ((List.mem_range.1 hj).trans_le hn), List.length_mapIdx⟩
  case recover =>
    have hcap : chosen.length ≤ 255 := hsub.length_le.trans (by simpa using hn)
    have hchosen : ∀ sh ∈ chosen, sh = shareAt r k secret sh.x := fun sh hsh => by
      obtain ⟨j, -, rfl⟩ := List.mem_map.1 (hsub.subset hsh)
      rfl
    exact recover_of_shareAt h' hk hne (nodup_map_of_subperm hsub hd) hcap hchosen hkm hm

end Sys2Proof.Machine
end

section
/-! PROOFS. Conditions (spec/60_exceptions.md, R130 to R141): the one status each command ends in, and what a
command that ends in a condition leaves. -/

namespace Sys2Proof.Machine

/-! ### The status of each command -/

/-- The status a command ends in (R131), by the tests it makes before any arithmetic (R140). -/
def commandStatus (s : State) : Instr → Status
  | .add _ _ | .sub _ _ | .mul _ _ | .pclr | .lclr => .ok
  | .div _ v | .inv v => if v = 0x00#8 then .divisionByZero else .ok
  | .ppush _          => if 255 ≤ s.pcnt then .invalidParameters else .ok
  | .peval _          => if s.pcoef = [] then .invalidParameters else .ok
  | .lpush _ _        => if 255 ≤ s.lcnt then .invalidParameters else .ok
  | .linterp          =>
    if s.lcnt < 2 then .inconsistentShares
    else if ¬ (s.points.map Point.x).Nodup then .duplicateShare else .ok

/-- A next state, if there is one, presents a response with the status `st`. -/
def EndsIn (st : Status) (o : Result) : Prop :=
  ∀ (t : State) (r : RspWord), o = .next t → t.rsp = some r → rspStatus r = statusCode st

namespace EndsIn

theorem respond {st : Status} {v : Byte} {s : State} : EndsIn st (.next (s.respond st v)) := by
  rintro _ _ ⟨⟩ ⟨⟩
  exact rspStatus_rspWord st v

theorem raise {c : Status} {s : State} : EndsIn c (.next (s.raise c)) := respond

theorem respondWith {v : Except Fault Byte} {s : State} : EndsIn .ok (respondWith v s) := by
  cases v with
  | ok b => exact respond
  | error f => exact fun _ _ h => nomatch h

/-- A command's test `c` decides its status, whatever way `d` the test is spelt. -/
theorem ite {c d : Prop} [Decidable c] [Decidable d] (hcd : c ↔ d) {st st' : Status} {o o' : Result}
    (h : EndsIn st o) (h' : EndsIn st' o') :
    EndsIn (if d then st else st') (if c then o else o') := by
  simp only [hcd]
  split
  · exact h
  · exact h'

/-- R131, command by command, in every state and under any parameters. -/
theorem execFor (F : FieldParams) (i : Instr) (s : State) :
    EndsIn (commandStatus s i) (execFor F i s) := by
  cases i with
  | add a b | sub a b | pclr | lclr => exact respond
  | mul a b => exact respondWith
  | div a b | inv a => exact ite isZero_iff raise respondWith
  | ppush c => exact ite coefficientsFull_iff raise respond
  | peval x => exact ite coefficientsEmpty_iff raise respondWith
  | lpush x y => exact ite pointsFull_iff raise respond
  | linterp =>
    have hd : s.duplicatePoints = true ↔ ¬ (s.points.map Point.x).Nodup := duplicatePoints_iff
    exact ite tooFewPoints_iff raise (ite hd raise respondWith)

theorem exec (i : Instr) (s : State) : EndsIn (commandStatus s i) (exec i s) := by
  rw [exec_eq_execFor]
  exact execFor Config.field i s

end EndsIn

/-- Settles O18: by `EndsIn.exec`; by the invariant a buffer is full when its count is 255. -/
theorem statusOfEachCommand : Obligations.StatusOfEachCommand := by
  refine ⟨fun i s t r hinv ht hr => ?command, fun w e s t r hd ht hr => ?illegal⟩
  case command =>
    have hp : 255 ≤ s.pcnt ↔ s.pcnt = 255 := hinv.pcap.ge_iff_eq
    have hl : 255 ≤ s.lcnt ↔ s.lcnt = 255 := hinv.lcap.ge_iff_eq
    have hnil : s.pcoef = [] ↔ s.pcnt = 0 := List.length_eq_zero_iff.symm
    rw [EndsIn.exec i s t r ht hr]
    cases i with
    | add a b | sub a b | mul a b | pclr | lclr => rfl
    | div a b | inv a => exact apply_ite statusCode ..
    | ppush c => simp only [commandStatus, hp, apply_ite statusCode]; rfl
    | peval x => simp only [commandStatus, hnil, apply_ite statusCode]; rfl
    | lpush x y => simp only [commandStatus, hl, apply_ite statusCode]; rfl
    | linterp => simp only [commandStatus, ite_not, apply_ite statusCode]; rfl
  case illegal =>
    rw [runCommand_of_error hd] at ht
    exact EndsIn.raise t r ht hr

/-! ### `DivisionByZero` -/

/-- Only `DIV` and `INV` test an operand; the other tests raise other conditions (R132). -/
theorem commandStatus_eq_divisionByZero {s : State} {i : Instr}
    (h : commandStatus s i = .divisionByZero) : (∃ a, i = .div a 0x00#8) ∨ i = .inv 0x00#8 := by
  cases i with
  | div a b =>
    obtain rfl : b = 0x00#8 := by simpa [commandStatus] using h
    exact .inl ⟨a, rfl⟩
  | inv a =>
    obtain rfl : a = 0x00#8 := by simpa [commandStatus] using h
    exact .inr rfl
  | add a b | sub a b | mul a b | pclr | lclr => cases h
  | ppush c | peval x | lpush x y | linterp => simp [commandStatus, ite_eq_iff] at h

/-- Settles O19: the two commands raise the condition by their equations, and `commandStatus` gives its
code to no other. -/
theorem divisionByZeroIsRaisedByDivAndInvOnly :
    Obligations.DivisionByZeroIsRaisedByDivAndInvOnly := by
  refine ⟨fun a s => ⟨?div, ?inv⟩, fun i s t r ht hr hst => ?only⟩
  case div => rw [exec_eq_execFor, execFor_div_zero]; rfl
  case inv => rw [exec_eq_execFor, execFor_inv_zero]; rfl
  case only =>
    have hcode : statusCode (commandStatus s i) = statusCode .divisionByZero :=
      (EndsIn.exec i s t r ht hr).symm.trans hst
    exact commandStatus_eq_divisionByZero (statusCode_inj.1 hcode)

/-! ### What a condition leaves -/

/-- Everything a word in progress can do when it answers a next state: it raises a condition, or it
succeeds with one of the writes of R26. -/
theorem runCommand_raises_or_writes {w : CmdWord} {s t : State} (h : runCommand w s = .next t) :
    (∃ c, c ≠ .ok ∧ t = s.raise c) ∨ (∃ v u, Written s u ∧ t = u.respond .ok v) := by
  cases hd : decode w with
  | ok i => exact exec_next ((runCommand_of_ok hd s).symm.trans h)
  | error e =>
    exact .inl ⟨.illegalCommand, by decide,
      (Host.Outcome.next.inj ((runCommand_of_error hd s).symm.trans h)).symm⟩

/-- Settles O17: a word that writes a buffer ends in `OK`. -/
theorem conditionChangesNothing : Obligations.ConditionChangesNothing := by
  intro w s t r ht hr hst
  obtain ⟨c, -, rfl⟩ | ⟨v, u, -, rfl⟩ := runCommand_raises_or_writes ht
  · obtain rfl := Option.some.inj hr
    exact ⟨raise_pcoef s c, raise_points s c, raise_inputs s c, rspValue_rspWord c 0x00#8⟩
  · exact absurd (EndsIn.respond _ r rfl hr) hst

end Sys2Proof.Machine
end

section
/-! PROOFS. A step of an idle block at whose ports nothing happens (R6, R150). -/

namespace Sys2Proof.Machine

/-- Settles O8: sampling is all that such a step does, and it changes only what the host will drive. -/
theorem idleBlockKeepsItsState : Obligations.IdleBlockKeepsItsState :=
  fun _ hr hv hidle => step_of_quiet hr hidle hv

end Sys2Proof.Machine
end
